-- ==== Sys2Proof/Word.lean ====
section
/-! DEFINITION. The words of the block: octets, sextets and group integers (spec/00_scope.md R6, R7). -/

namespace Sys2Proof

/-- An octet, also a character code (spec/30_encoding.md R54). -/
abbrev Byte := BitVec 8

/-- A sextet, the value one alphabet character carries (spec/00_scope.md R6). -/
abbrev Sextet := BitVec 6

/-- The 24-bit group integer (spec/30_encoding.md R56). -/
abbrev Group := BitVec 24

end Sys2Proof
end

