-- ==== Sys2Proof/Syntax.lean ====
section
/-! DEFINITION. The commands of the block: one constructor per row of spec/opcode_table.json
(spec/30_encoding.md R51). A command has no operand field (R53). -/

namespace Sys2Proof

/-- The commands (spec/30_encoding.md R51). -/
inductive Instr where
  /-- `ENC`, encode the input buffer (spec/41_encoder.md R85). -/
  | enc
  /-- `DEC`, decode the input buffer (spec/42_decoder.md R102). -/
  | dec
deriving DecidableEq, Repr

end Sys2Proof
end

