-- ==== Sys2Proof/Decode.lean ====
section
/-! DEFINITION. The decoder of command words, total on 8-bit words, and the encoder (spec/30_encoding.md R50 to R52). -/

namespace Sys2Proof

/-- What a command word decodes to: a command, or an illegal word, by name (spec/30_encoding.md R51, R52). -/
inductive Decoded where
  | command (i : Instr)
  | illegalCommand (v : Byte)
deriving DecidableEq, Repr

/-- The command decoder: all 8 bits take part in the match (spec/30_encoding.md R51, R52). -/
def decode (v : Byte) : Decoded :=
  if v = 0x01#8 then .command .enc
  else if v = 0x02#8 then .command .dec
  else .illegalCommand v

/-- The word of a command (spec/30_encoding.md R51). -/
def encode : Instr → Byte
  | .enc => 0x01#8
  | .dec => 0x02#8

/-- The command word laid out of an opcode-table row: the row's bits, those above `nbits` being 0; the one format C8 is
one word of 8 bits (spec/30_encoding.md R50). -/
def tableWord (nbits w : Nat) : Byte := BitVec.ofNat 8 (w % 2 ^ nbits)

/-- The command the decoder reads from the opcode table's numbering of a row's bits. -/
def decodeTableWord (nbits w : Nat) : Option Instr :=
  match decode (tableWord nbits w) with
  | .command i => some i
  | .illegalCommand _ => none

end Sys2Proof
end

