-- ==== Sys2Proof/Machine/Alphabet.lean ====
section
/-! DEFINITION. The alphabet lookup, its inverse and the pad test (spec/40_alphabet_lookup.md R70 to R72). They are
constants of the hardware, no state (spec/10_state.md R20). The character codes are those of spec/30_encoding.md R55. -/

namespace Sys2Proof.Machine

/-- The pad character `=` (spec/30_encoding.md R55). -/
def padChar : Byte := 0x3D#8

/-- `ALPHA(s)` (spec/40_alphabet_lookup.md R70). It is injective and never gives the pad character (R73). -/
def alpha (s : Sextet) : Byte :=
  if s.toNat ≤ 25 then BitVec.ofNat 8 (0x41 + s.toNat)
  else if s.toNat ≤ 51 then BitVec.ofNat 8 (0x61 + (s.toNat - 26))
  else if s.toNat ≤ 61 then BitVec.ofNat 8 (0x30 + (s.toNat - 52))
  else if s.toNat = 62 then 0x2B#8
  else 0x2F#8

/-- `INV(c)`: `some s` is `value(s)`, `none` is `invalid` (spec/40_alphabet_lookup.md R71). It is `value(s)` exactly when
`c` is `ALPHA(s)` (R73). -/
def inv (c : Byte) : Option Sextet :=
  if 0x41 ≤ c.toNat ∧ c.toNat ≤ 0x5A then some (BitVec.ofNat 6 (c.toNat - 0x41))
  else if 0x61 ≤ c.toNat ∧ c.toNat ≤ 0x7A then some (BitVec.ofNat 6 (c.toNat - 0x61 + 26))
  else if 0x30 ≤ c.toNat ∧ c.toNat ≤ 0x39 then some (BitVec.ofNat 6 (c.toNat - 0x30 + 52))
  else if c.toNat = 0x2B then some 62#6
  else if c.toNat = 0x2F then some 63#6
  else none

/-- `ISPAD(c)` (spec/40_alphabet_lookup.md R72). -/
def isPad (c : Byte) : Bool := c = padChar

end Sys2Proof.Machine
end

