-- ==== Sys2Proof/Config.lean ====
section
/-! DEFINITION. The open parameters of a block (spec/00_scope.md R5) and the free values the spec leaves open
(spec/70_reset_and_hazards.md R150). Nothing in this file has a value a proof can see but the constraint `LEN_W >= 3`. -/

namespace Sys2Proof

/-- The parameters of one block (spec/00_scope.md R5). `VERSION_ID < 2^32` holds by the type of `versionId`. -/
structure Config where
  /-- `LEN_W`: width of `ILEN`; `IBUF` has `2^LEN_W` octets. -/
  lenW : Nat
  /-- `OBUF_SIZE`: number of octets of `OBUF`. -/
  obufSize : Nat
  /-- `VERSION_ID`: the value `VERSION` reads as. -/
  versionId : BitVec 32
deriving DecidableEq, Repr

/-- The constraint of spec/00_scope.md R5 on `LEN_W`. -/
abbrev Config.ok (c : Config) : Prop := 3 ≤ c.lenW

/-- `IBUF` has exactly `2^LEN_W` octets (spec/00_scope.md R5). -/
abbrev Config.ibufSize (c : Config) : Nat := 2 ^ c.lenW

/-- Free: by how much `LEN_W` of the block exceeds its least value 3 (DESIGN CHOICE, safe, notes/assumptions/1.md). -/
opaque Config.freeLenWAbove3 : Nat

/-- Free: `OBUF_SIZE` of the block (DESIGN CHOICE, safe, notes/assumptions/1.md). -/
opaque Config.freeObufSize : Nat

/-- Free: `VERSION_ID` of the block (DESIGN CHOICE, safe, notes/assumptions/1.md). -/
opaque Config.freeVersionId : BitVec 32

/-- The block's parameters, any that meet the constraints of spec/00_scope.md R5 (DESIGN CHOICE, safe,
notes/assumptions/1.md). -/
def Config.block : Config :=
  { lenW := Config.freeLenWAbove3 + 3, obufSize := Config.freeObufSize, versionId := Config.freeVersionId }

/-- Free: what octet `i` of `IBUF` of a block with content key `c` holds from its `k`-th reset on until it is written
(spec/70_reset_and_hazards.md R150; DESIGN CHOICE, safe, notes/assumptions/2.md). How one block's content relates to
another's is open in the spec; here it is the key's doing: blocks with different keys have unrelated contents, blocks
with one key and one reset count the same content (DESIGN CHOICE, unsafe, notes/assumptions/16.md). Nor does it depend
on what the block held or did before the reset (DESIGN CHOICE, unsafe, notes/assumptions/17.md). -/
opaque Config.ibufAtReset : (c : Nat) → (k : Nat) → (i : Nat) → Byte

/-- Free: what octet `i` of `OBUF` of a block with content key `c` holds from its `k`-th reset on until it is written
(spec/70_reset_and_hazards.md R150; DESIGN CHOICE, safe, notes/assumptions/2.md). As for `IBUF`, the key decides how
one block's content relates to another's (DESIGN CHOICE, unsafe, notes/assumptions/16.md), and what the block held or
did before the reset plays no part (DESIGN CHOICE, unsafe, notes/assumptions/17.md). -/
opaque Config.obufAtReset : (c : Nat) → (k : Nat) → (i : Nat) → Byte

end Sys2Proof
end

