-- ==== Sys2Proof/Machine/HostSyntax.lean ====
section
/-! DEFINITION. What the outside world can do to a block, as syntax: the registers by name, the host operations
(spec/43_version_and_host.md R116), the platform's reset (spec/70_reset_and_hazards.md R150), what reads return, the
bus form of an operation (spec/20_memory.md R38) and the line notation of host programs (R120). -/

namespace Sys2Proof.Machine

/-- The five registers (spec/10_state.md R10). -/
inductive Reg where
  | version
  | cmd
  | status
  | ilen
  | olen
deriving DecidableEq, Repr

/-- The host operations (spec/43_version_and_host.md R116). The ranges of R116 are checked by `HostOp.wf`. -/
inductive HostOp where
  /-- `HostWriteIBUF(i, v)`. -/
  | writeIbuf (i : Nat) (v : Byte)
  /-- `HostReadIBUF(i)`. -/
  | readIbuf (i : Nat)
  /-- `HostReadOBUF(i)`. -/
  | readObuf (i : Nat)
  /-- `HostWriteReg(r, v)`; a write of `CMD` executes the command `v` (R117). -/
  | writeReg (r : Reg) (v : Nat)
  /-- `HostReadReg(r)`. -/
  | readReg (r : Reg)
deriving DecidableEq, Repr

/-- What can come next at a block: an operation of its host, or a reset by the platform, which happens between two
operations (spec/70_reset_and_hazards.md R150). -/
inductive Event where
  | host (op : HostOp)
  | reset
deriving DecidableEq, Repr

/-- What a read operation returned to the host (spec/43_version_and_host.md R116, R118). -/
inductive Reply where
  | reg (r : Reg) (v : Nat)
  | ibuf (i : Nat) (v : Byte)
  | obuf (i : Nat) (v : Byte)
deriving DecidableEq, Repr

/-- A host operation as it goes over a bus: the "encoding" column of spec/43_version_and_host.md R120, registers by
the offsets of spec/20_memory.md R38. -/
inductive BusAccess where
  | regWrite (offset data : Nat)
  | regRead (offset : Nat)
  | ibufWrite (i : Nat) (v : Byte)
  | ibufRead (i : Nat)
  | obufRead (i : Nat)
deriving DecidableEq, Repr

/-- A line of a host program (spec/43_version_and_host.md R120). `wr ILEN`, `wr CMD` and the writes of the read-only
registers are the one form `wr`. -/
inductive Line where
  | wib (i : Nat) (v : Byte)
  /-- `wib i, "text"`. -/
  | wibText (i : Nat) (text : List Char)
  | rib (i : Nat)
  | rob (i : Nat)
  | wr (r : Reg) (v : Nat)
  | enc
  | dec
  | rd (r : Reg)
deriving DecidableEq, Repr

/-- The four failures (spec/60_exceptions.md R130). -/
inductive Failure where
  | invalidLength
  | allocationFailure
  | invalidCharacter
  | illegalCommand
deriving DecidableEq, Repr

/-- The result of a macro: a sequence of octets with its length, or a failure name
(spec/43_version_and_host.md section 4). -/
inductive MacroResult where
  | ok (data : List Byte) (length : Nat)
  | failed (f : Failure)
deriving DecidableEq, Repr

end Sys2Proof.Machine
end

