-- ==== Sys2Proof/Machine/State.lean ====
section
/-! DEFINITION. The state of a block (spec/10_state.md R10), the reasons a step can stop, and the state after reset
(spec/10_state.md R22). -/

namespace Sys2Proof.Machine

/-- A buffer memory: the octets written since the last reset, as index and octet, indices strictly rising
(`Memory.wf`). An index that is not listed has not been written; it reads as the free value of
`State.readIbuf`, `State.readObuf` (DESIGN CHOICE, safe, notes/assumptions/3.md). -/
abbrev Memory := List Host.Cell

/-- The reasons the machine stops with a fault: none. The block cannot hang, fault a bus or stop
(spec/60_exceptions.md R135, spec/70_reset_and_hazards.md R158); its four failures are taken, not stopped on
(`State.raise`). -/
inductive Fault where
deriving DecidableEq, Repr

/-- The reasons a step is refused. All but the first are raised for a host operation that the spec says cannot be
expressed (spec/43_version_and_host.md R119, spec/93_implementation_defined.md U5, U13); DESIGN CHOICE, safe,
notes/assumptions/6.md. -/
inductive Refusal where
  /-- A command without a meaning, by its mnemonic: raised by no arm of `exec`. Safe. -/
  | notModelled (mnemonic : String)
  /-- Raised by `issue` for an `IBUF` index outside the buffer. Safe. -/
  | indexOutsideIbuf
  /-- Raised by `issue` for an `OBUF` index outside the buffer. Safe. -/
  | indexOutsideObuf
  /-- Raised by `issue` for a value wider than the register written. Safe. -/
  | valueOutsideRegister
  /-- Raised by `busAccess` for a register offset that is not implemented (spec/20_memory.md R38). Safe. -/
  | unimplementedOffset
  /-- Raised by `Platform.stepAt` for a block the platform does not have (spec/60_exceptions.md R146). Safe. -/
  | noSuchBlock
deriving DecidableEq, Repr

/-- One block and what its host has asked and been told. `VERSION` is `config.versionId`; `CMD` stores nothing
(spec/10_state.md R18, R19; DEDUCED, safe, notes/assumptions/10.md). -/
structure State where
  /-- The block's parameters (spec/00_scope.md R5): no step changes them (DESIGN CHOICE, safe,
notes/assumptions/1.md). -/
  config : Config
  /-- `STATUS` (spec/10_state.md R15). -/
  status : BitVec 8
  /-- `ILEN`, a natural of `LEN_W` bits (spec/10_state.md R11; DEDUCED, safe, notes/assumptions/8.md). -/
  ilen : Nat
  /-- `OLEN`, a natural of `LEN_W + 1` bits (spec/10_state.md R12; DEDUCED, safe, notes/assumptions/8.md). -/
  olen : Nat
  /-- `IBUF` (spec/10_state.md R13). -/
  ibuf : Memory
  /-- `OBUF` (spec/10_state.md R14). -/
  obuf : Memory
  /-- Model's own: which free reset contents the buffers of this block have. The spec leaves open how one block's reset
  content relates to another's (spec/60_exceptions.md R146, spec/70_reset_and_hazards.md R150): blocks with different
  keys have unrelated contents. No step changes it (DESIGN CHOICE, unsafe, notes/assumptions/16.md). -/
  contentKey : Nat
  /-- Model's own: how many platform resets came after the first; it selects the reset content of the buffers
  (DESIGN CHOICE, safe, notes/assumptions/2.md), and nothing else of the block's past does (DESIGN CHOICE, unsafe,
  notes/assumptions/17.md). -/
  resets : Nat
  /-- Model's own: the host operations and resets to come, in their total order (spec/20_memory.md R40;
  DESIGN CHOICE, unsafe, notes/assumptions/4.md). -/
  pending : List Event
  /-- Model's own: what reads have returned to the host, oldest first (DESIGN CHOICE, safe, notes/assumptions/5.md). -/
  replies : List Reply
deriving DecidableEq, Repr

/-- The state right after reset (spec/10_state.md R22): no octet written, no operation issued yet. The
block has had its first reset (spec/70_reset_and_hazards.md R150; DESIGN CHOICE, safe, notes/assumptions/11.md). -/
def State.reset : State :=
  { config := Config.block, status := 0x00#8, ilen := 0, olen := 0, ibuf := [], obuf := [], contentKey := 0,
    resets := 0, pending := [], replies := [] }

end Sys2Proof.Machine
end

