-- ==== Sys2Proof/Machine/Flags.lean ====
section
/-! DEFINITION. The `STATUS` register's fields and values (spec/10_state.md R15, spec/30_encoding.md R58). -/

namespace Sys2Proof.Machine

/-- The code of a failure (spec/60_exceptions.md R130). -/
def Failure.code : Failure → Nat
  | .invalidLength => 1
  | .allocationFailure => 2
  | .invalidCharacter => 3
  | .illegalCommand => 4

/-- `STATUS = (ERR << 1) | 1` after any command (spec/30_encoding.md R58). -/
def statusOf (err : Nat) : BitVec 8 := (BitVec.ofNat 8 err <<< 1) ||| 0x01#8

/-- `STATUS` after a command that succeeded (spec/60_exceptions.md R138). -/
def statusSuccess : BitVec 8 := statusOf 0

/-- `STATUS` after a failure (spec/60_exceptions.md R137). -/
def Failure.status (f : Failure) : BitVec 8 := statusOf f.code

/-- The field `DONE`, bit 0 (spec/10_state.md R15). -/
def doneField (st : BitVec 8) : Bool := st.getLsbD 0

/-- The field `ERR`, bits 3:1 (spec/10_state.md R15). -/
def errField (st : BitVec 8) : Nat := (st.extractLsb' 1 3).toNat

/-- The reserved field, bits 7:4 (spec/10_state.md R15). -/
def reservedField (st : BitVec 8) : Nat := (st.extractLsb' 4 4).toNat

/-- The legal values of `STATUS` (spec/10_state.md R15). -/
def legalStatus (st : BitVec 8) : Bool :=
  st = 0x00#8 || st = 0x01#8 || st = 0x03#8 || st = 0x05#8 || st = 0x07#8 || st = 0x09#8

end Sys2Proof.Machine
end

