-- ==== Sys2Proof/Machine/Ops.lean ====
section
/-! DEFINITION. The named operations over the buffers and the registers (spec/20_memory.md, spec/10_state.md), the end
of a command by failure or by success (spec/60_exceptions.md R137, R138), the platform's reset
(spec/70_reset_and_hazards.md R150), and the sequencing of outcomes. -/

namespace Sys2Proof.Machine

/-- The octet written at an index since the last reset, if one was. -/
def Memory.octetAt : Memory → Nat → Option Byte
  | [], _ => none
  | (a, u) :: m, i => if a = i then some u else Memory.octetAt m i

/-- Write one octet, keeping the indices strictly rising. -/
def Memory.write : Memory → Nat → Byte → Memory
  | [], i, v => [(i, v)]
  | (a, u) :: m, i, v =>
    if i < a then (i, v) :: (a, u) :: m
    else if i = a then (i, v) :: m
    else (a, u) :: Memory.write m i v

/-- The canonical form: indices strictly rising (DESIGN CHOICE, safe, notes/assumptions/3.md). -/
abbrev Memory.wf (m : Memory) : Prop := m.Pairwise fun c d => c.1 < d.1

/-- Every index lies in a buffer of `size` octets (spec/20_memory.md R39). -/
abbrev Memory.within (m : Memory) (size : Nat) : Prop := ∀ c ∈ m, c.1 < size

/-- `MemRead(IBUF:i, 1)`: the octet written there, or the reset content where none was (spec/20_memory.md R36,
spec/70_reset_and_hazards.md R153; a free value, DESIGN CHOICE, notes/assumptions/2.md, safe, across blocks
notes/assumptions/16.md, unsafe, and across histories of one block notes/assumptions/17.md, unsafe). -/
def State.readIbuf (s : State) (i : Nat) : Byte :=
  (s.ibuf.octetAt i).getD (Config.ibufAtReset s.contentKey s.resets i)

/-- `MemRead(OBUF:i, 1)`, as `State.readIbuf`. -/
def State.readObuf (s : State) (i : Nat) : Byte :=
  (s.obuf.octetAt i).getD (Config.obufAtReset s.contentKey s.resets i)

/-- `MemWrite(IBUF:i, 1, v)`. Only the host does this (spec/20_memory.md R37). -/
def State.writeIbuf (s : State) (i : Nat) (v : Byte) : State := { s with ibuf := s.ibuf.write i v }

/-- `MemWrite(OBUF:i, 1, v)`. Only a command does this (spec/20_memory.md R37). -/
def State.writeObuf (s : State) (i : Nat) (v : Byte) : State := { s with obuf := s.obuf.write i v }

/-- The value a read of a register returns (spec/43_version_and_host.md R118). -/
def State.readReg (s : State) : Reg → Nat
  | .version => s.config.versionId.toNat
  | .cmd => 0
  | .status => s.status.toNat
  | .ilen => s.ilen
  | .olen => s.olen

/-- Failure entry, `raise F()`: `OLEN` and `STATUS` are written and nothing else (spec/60_exceptions.md R137). There
is no return from it and nothing to restore (R141): the next command overwrites both registers. -/
def State.raise (s : State) (f : Failure) : State := { s with olen := 0, status := f.status }

/-- Success entry with computed output length `m`; the octets are written already (spec/60_exceptions.md R138). -/
def State.succeed (s : State) (m : Nat) : State := { s with olen := m, status := statusSuccess }

/-- Reset, applied by the platform (spec/70_reset_and_hazards.md R150): the state of spec/10_state.md R22, every octet
of both buffers at a new arbitrary value. That value is chosen by the block's key and its count of resets, whatever the
octet held and whatever ran before; the spec leaves open whether it depends on them (DESIGN CHOICE, unsafe,
notes/assumptions/17.md). The host's pending operations and what it was told are the host's and stay
(DESIGN CHOICE, unsafe, notes/assumptions/7.md). -/
def State.platformReset (s : State) : State :=
  { s with status := 0x00#8, ilen := 0, olen := 0, ibuf := [], obuf := [], resets := s.resets + 1 }

/-- The host notes what a read returned; the block does not change (spec/20_memory.md R36; DESIGN CHOICE, safe,
notes/assumptions/5.md). -/
def State.answer (s : State) (r : Reply) : State := { s with replies := s.replies ++ [r] }

/-- The outcome of one step and then another. -/
def andThen {α β : Type} (o : Host.Outcome α Fault Refusal) (f : α → Host.Outcome β Fault Refusal) :
    Host.Outcome β Fault Refusal :=
  match o with
  | .next a => f a
  | .fault r => .fault r
  | .refused r => .refused r

end Sys2Proof.Machine
end

