-- ==== Sys2Proof/Machine/Operands.lean ====
section
/-! DEFINITION. The implicit operands of a command (spec/30_encoding.md R53) as the commands take them from `ILEN` and
`IBUF`: the encoder's groups with zero fill, the decoder's pad count and sextets; and the group integer's two layouts
(spec/30_encoding.md R56, R57). -/

namespace Sys2Proof.Machine

/-- `ENCFETCH(g)`: an octet at or beyond the input length is 0 whatever the buffer holds (spec/41_encoder.md R81). -/
def encFetch (s : State) (g : Nat) : Byte × Byte × Byte :=
  (s.readIbuf (3 * g),
   if 3 * g + 1 < s.ilen then s.readIbuf (3 * g + 1) else 0x00#8,
   if 3 * g + 2 < s.ilen then s.readIbuf (3 * g + 2) else 0x00#8)

/-- `PADCNT(n)`: only the last two characters count (spec/42_decoder.md R95). -/
def padCnt (s : State) : Nat :=
  if s.ilen = 0 then 0
  else if ¬ isPad (s.readIbuf (s.ilen - 1)) then 0
  else if ¬ isPad (s.readIbuf (s.ilen - 2)) then 1
  else 2

/-- `SEXTET(i)` with pad count `p`: a counted pad position contributes 0, every other position `INV`
(spec/42_decoder.md R97). -/
def sextetAt (s : State) (p i : Nat) : Option Sextet :=
  if s.ilen - p ≤ i then some 0#6 else inv (s.readIbuf i)

/-- `PACK3(b1, b2, b3)` (spec/41_encoder.md R82). -/
def pack3 (b1 b2 b3 : Byte) : Group :=
  (b1.setWidth 24 <<< 16) ||| (b2.setWidth 24 <<< 8) ||| b3.setWidth 24

/-- The four sextets of a group integer, most significant first (spec/30_encoding.md R57). -/
def sextets (w : Group) : Sextet × Sextet × Sextet × Sextet :=
  (w.extractLsb' 18 6, w.extractLsb' 12 6, w.extractLsb' 6 6, w.extractLsb' 0 6)

/-- `PACK4(s1, s2, s3, s4)` (spec/42_decoder.md R98). -/
def pack4 (s1 s2 s3 s4 : Sextet) : Group :=
  (s1.setWidth 24 <<< 18) ||| (s2.setWidth 24 <<< 12) ||| (s3.setWidth 24 <<< 6) ||| s4.setWidth 24

/-- `SPLIT3(w)` (spec/42_decoder.md R98). -/
def split3 (w : Group) : Byte × Byte × Byte :=
  (w.extractLsb' 16 8, w.extractLsb' 8 8, w.extractLsb' 0 8)

/-- `SPLIT4(w)` (spec/41_encoder.md R83). -/
def split4 (w : Group) : Byte × Byte × Byte × Byte :=
  (alpha (sextets w).1, alpha (sextets w).2.1, alpha (sextets w).2.2.1, alpha (sextets w).2.2.2)

end Sys2Proof.Machine
end

