-- ==== Sys2Proof/Machine/Decoder.lean ====
section
/-! DEFINITION. The command `DEC` (spec/42_decoder.md). -/

namespace Sys2Proof.Machine

/-- `DECLEN(n, p)` (spec/42_decoder.md R96). -/
def decLen (n p : Nat) : Nat := 3 * (n / 4) - p

/-- The character check over the positions `0 .. k - 1` (spec/42_decoder.md R101). -/
def charsValid (s : State) (p : Nat) : (k : Nat) → Bool
  | 0 => true
  | k + 1 => charsValid s p k && (sextetAt s p k).isSome

/-- The sextet of a position that the character check has passed: `value(s) = SEXTET(i)` of spec/42_decoder.md R102.
The default is never taken there (`charsValid_isSome`; DEDUCED, safe, notes/assumptions/9.md). -/
def sextetValue (s : State) (p i : Nat) : Sextet := (sextetAt s p i).getD 0#6

/-- The 24-bit integer of input group `g` (spec/42_decoder.md R98, R102). -/
def decWord (s : State) (p g : Nat) : Group :=
  pack4 (sextetValue s p (4 * g)) (sextetValue s p (4 * g + 1)) (sextetValue s p (4 * g + 2))
    (sextetValue s p (4 * g + 3))

/-- One guarded write at the running output index: `if oi < m then { MemWrite(OBUF:oi, 1, b); oi = oi + 1 }`
(spec/42_decoder.md R98, R102). -/
def decPut (m : Nat) (b : Byte) (r : Nat × State) : Nat × State :=
  if r.1 < m then (r.1 + 1, r.2.writeObuf r.1 b) else r

/-- One group: three octets offered in order (spec/42_decoder.md R102). -/
def decGroup (p m g : Nat) (r : Nat × State) : Nat × State :=
  let b := split3 (decWord r.2 p g)
  decPut m b.2.2 (decPut m b.2.1 (decPut m b.1 r))

/-- The groups `0 .. k - 1` in ascending order from output index 0 (spec/42_decoder.md R102). -/
def decGroups (p m : Nat) : (k : Nat) → State → Nat × State
  | 0, s => (0, s)
  | k + 1, s => decGroup p m k (decGroups p m k s)

/-- All the output of a successful `DEC` (spec/42_decoder.md R102). -/
def decBody (s : State) : State :=
  (decGroups (padCnt s) (decLen s.ilen (padCnt s)) (s.ilen / 4) s).2

/-- `DEC` (spec/42_decoder.md R102): three checks in the order of spec/60_exceptions.md R136, all before any write. -/
def execDec (s : State) : Host.Outcome State Fault Refusal :=
  if s.ilen % 4 ≠ 0 then .next (s.raise .invalidLength)
  else if s.config.obufSize < decLen s.ilen (padCnt s) then .next (s.raise .allocationFailure)
  else if charsValid s (padCnt s) s.ilen = false then .next (s.raise .invalidCharacter)
  else .next ((decBody s).succeed (decLen s.ilen (padCnt s)))

end Sys2Proof.Machine
end

