-- ==== Sys2Proof/Machine/Encoder.lean ====
section
/-! DEFINITION. The command `ENC` (spec/41_encoder.md). -/

namespace Sys2Proof.Machine

/-- `ENCLEN(n)` (spec/41_encoder.md R80). -/
def encLen (n : Nat) : Nat := 4 * ((n + 2) / 3)

/-- `ENCPAD(n)` (spec/41_encoder.md R84). -/
def encPad (n : Nat) : Nat :=
  if n % 3 = 0 then 0 else if n % 3 = 1 then 2 else 1

/-- The four characters of group `g`, before the pad: fetch, pack, split (spec/41_encoder.md R85). -/
def encChars (s : State) (g : Nat) : Byte × Byte × Byte × Byte :=
  let b := encFetch s g
  split4 (pack3 b.1 b.2.1 b.2.2)

/-- One group's four writes (spec/41_encoder.md R85). -/
def encGroup (g : Nat) (s : State) : State :=
  let c := encChars s g
  (((s.writeObuf (4 * g) c.1).writeObuf (4 * g + 1) c.2.1).writeObuf (4 * g + 2) c.2.2.1).writeObuf (4 * g + 3) c.2.2.2

/-- The groups `0 .. k - 1` in ascending order (spec/41_encoder.md R85). -/
def encGroups : (k : Nat) → State → State
  | 0, s => s
  | k + 1, s => encGroup k (encGroups k s)

/-- The pad writes at `m - 1 .. m - k` (spec/41_encoder.md R84, R85). -/
def padWrites (m : Nat) : (k : Nat) → State → State
  | 0, s => s
  | k + 1, s => (padWrites m k s).writeObuf (m - (k + 1)) padChar

/-- All the output of a successful `ENC`: the groups, then the pad (spec/41_encoder.md R85). -/
def encBody (s : State) : State :=
  padWrites (encLen s.ilen) (encPad s.ilen) (encGroups (encLen s.ilen / 4) s)

/-- `ENC` (spec/41_encoder.md R85): the length check precedes every write. -/
def execEnc (s : State) : Host.Outcome State Fault Refusal :=
  if s.config.obufSize < encLen s.ilen then .next (s.raise .allocationFailure)
  else .next ((encBody s).succeed (encLen s.ilen))

end Sys2Proof.Machine
end

