-- ==== Sys2Proof/WellFormed.lean ====
section
/-! DEFINITION. Which terms of the syntax stand for something the hardware can be given: every command, the host
operations whose arguments are in the ranges of spec/43_version_and_host.md R116, the text lines whose characters have
a code. -/

namespace Sys2Proof

/-- Every command is well formed: it has no operand to check (spec/30_encoding.md R53). -/
def Instr.wf : Instr → Bool
  | .enc => true
  | .dec => true

namespace Machine

/-- The argument ranges of spec/43_version_and_host.md R116. A write of a read-only register takes any value. -/
def HostOp.wf (c : Config) : HostOp → Bool
  | .writeIbuf i _ => decide (i < c.ibufSize)
  | .readIbuf i => decide (i < c.ibufSize)
  | .readObuf i => decide (i < c.obufSize)
  | .writeReg .cmd v => decide (v < 256)
  | .writeReg .ilen v => decide (v < 2 ^ c.lenW)
  | .writeReg .version _ => true
  | .writeReg .status _ => true
  | .writeReg .olen _ => true
  | .readReg _ => true

/-- A reset can always come (spec/70_reset_and_hazards.md R150). -/
def Event.wf (c : Config) : Event → Bool
  | .host op => op.wf c
  | .reset => true

/-- The characters of a text line are those of the 7-bit code of spec/30_encoding.md R55 and
spec/93_implementation_defined.md G2 (DESIGN CHOICE, safe, notes/assumptions/12.md). -/
def Line.wf : Line → Bool
  | .wibText _ text => text.all fun ch => decide (ch.toNat < 128)
  | .wib _ _ => true
  | .rib _ => true
  | .rob _ => true
  | .wr _ _ => true
  | .enc => true
  | .dec => true
  | .rd _ => true

end Machine

end Sys2Proof
end

