-- ==== Sys2Proof/Machine/HostInterface.lean ====
section
/-! DEFINITION. What each host operation does (spec/43_version_and_host.md R116 to R119), the bus form of an operation
(spec/20_memory.md R38), the line notation (R120) and the three macros (R121 to R123). -/

namespace Sys2Proof.Machine

/-- A write of `CMD` executes one command, or fails with `IllegalCommand` (spec/43_version_and_host.md R117,
spec/60_exceptions.md R134). The value is not stored (spec/10_state.md R18). -/
def runCommand (v : Byte) (s : State) : Host.Outcome State Fault Refusal :=
  match decode v with
  | .command i => exec i s
  | .illegalCommand _ => .next (s.raise .illegalCommand)

/-- The effect of a host operation whose arguments are in range (spec/43_version_and_host.md R116). -/
def perform (op : HostOp) (s : State) : Host.Outcome State Fault Refusal :=
  match op with
  | .writeIbuf i v => .next (s.writeIbuf i v)
  | .readIbuf i => .next (s.answer (.ibuf i (s.readIbuf i)))
  | .readObuf i => .next (s.answer (.obuf i (s.readObuf i)))
  | .writeReg .ilen v => .next { s with ilen := v }
  | .writeReg .cmd v => runCommand (BitVec.ofNat 8 v) s
  | .writeReg .version _ => .next s
  | .writeReg .status _ => .next s
  | .writeReg .olen _ => .next s
  | .readReg r => .next (s.answer (.reg r (s.readReg r)))

/-- Why an operation with an argument out of range is refused (DESIGN CHOICE, safe, notes/assumptions/6.md). -/
def HostOp.refusal : HostOp → Refusal
  | .writeIbuf _ _ => .indexOutsideIbuf
  | .readIbuf _ => .indexOutsideIbuf
  | .readObuf _ => .indexOutsideObuf
  | .writeReg _ _ => .valueOutsideRegister
  | .readReg _ => .valueOutsideRegister

/-- One host operation. An argument outside the ranges of spec/43_version_and_host.md R116 cannot be expressed on the
hardware (R119) and is refused by name. -/
def issue (op : HostOp) (s : State) : Host.Outcome State Fault Refusal :=
  if op.wf s.config then perform op s else .refused op.refusal

/-- Host operations in order (spec/20_memory.md R40). -/
def issueAll : List HostOp → State → Host.Outcome State Fault Refusal
  | [], s => .next s
  | op :: ops, s => andThen (issue op s) (issueAll ops)

/-- One event at a block (spec/70_reset_and_hazards.md R150). -/
def runEvent (e : Event) (s : State) : Host.Outcome State Fault Refusal :=
  match e with
  | .host op => issue op s
  | .reset => .next s.platformReset

/-- With nothing asked of it the block executes nothing (spec/70_reset_and_hazards.md R151; DESIGN CHOICE, unsafe,
notes/assumptions/4.md). -/
def idle (s : State) : Host.Outcome State Fault Refusal := .next s

/-- Take the next event off the total order and run it (spec/20_memory.md R40; DESIGN CHOICE, unsafe,
notes/assumptions/4.md). -/
def runNext (s : State) : Host.Outcome State Fault Refusal :=
  match s.pending with
  | [] => idle s
  | e :: rest => runEvent e { s with pending := rest }

/-- The host asks for a command word: the `CMD` write that starts the command (spec/43_version_and_host.md R117). -/
def State.withCommandNext (s : State) (v : Byte) : State :=
  { s with pending := .host (.writeReg .cmd v.toNat) :: s.pending }

/-- The offset of a register (spec/20_memory.md R38). -/
def Reg.offset : Reg → Nat
  | .version => 0x00
  | .cmd => 0x04
  | .status => 0x08
  | .ilen => 0x0C
  | .olen => 0x10

/-- The register at an offset; every other offset is not implemented (spec/20_memory.md R38; DESIGN CHOICE, safe,
notes/assumptions/15.md). -/
def Reg.ofOffset (o : Nat) : Option Reg :=
  if o = 0x00 then some .version
  else if o = 0x04 then some .cmd
  else if o = 0x08 then some .status
  else if o = 0x0C then some .ilen
  else if o = 0x10 then some .olen
  else none

/-- An operation as it goes over a bus (spec/43_version_and_host.md R120, column "encoding"). -/
def HostOp.toBus : HostOp → BusAccess
  | .writeIbuf i v => .ibufWrite i v
  | .readIbuf i => .ibufRead i
  | .readObuf i => .obufRead i
  | .writeReg r v => .regWrite r.offset v
  | .readReg r => .regRead r.offset

/-- The operation a bus access stands for. -/
def BusAccess.toOp : BusAccess → Option HostOp
  | .regWrite o v => (Reg.ofOffset o).map fun r => .writeReg r v
  | .regRead o => (Reg.ofOffset o).map .readReg
  | .ibufWrite i v => some (.writeIbuf i v)
  | .ibufRead i => some (.readIbuf i)
  | .obufRead i => some (.readObuf i)

/-- One bus access at a block; no host operation addresses an offset that is not implemented
(spec/20_memory.md R38). -/
def busAccess (a : BusAccess) (s : State) : Host.Outcome State Fault Refusal :=
  match a.toOp with
  | some op => issue op s
  | none => .refused .unimplementedOffset

/-- The code of a character of a text line (spec/43_version_and_host.md R120, spec/30_encoding.md R55). -/
def charCode (ch : Char) : Byte := BitVec.ofNat 8 ch.toNat

/-- `HostWriteIBUF(i + k, v_k)` for `k = 0, 1, ..` (spec/43_version_and_host.md R116, R120). -/
def writeRun : (i : Nat) → List Byte → List HostOp
  | _, [] => []
  | i, v :: vs => .writeIbuf i v :: writeRun (i + 1) vs

/-- The operations a line stands for (spec/43_version_and_host.md R120). -/
def Line.ops : Line → List HostOp
  | .wib i v => [.writeIbuf i v]
  | .wibText i text => writeRun i (text.map charCode)
  | .rib i => [.readIbuf i]
  | .rob i => [.readObuf i]
  | .wr r v => [.writeReg r v]
  | .enc => [.writeReg .cmd (encode .enc).toNat]
  | .dec => [.writeReg .cmd (encode .dec).toNat]
  | .rd r => [.readReg r]

/-- A host program: its lines in order (spec/43_version_and_host.md R120). A program with a text line that has a
character without a code is no program (DESIGN CHOICE, safe, notes/assumptions/12.md). -/
def assemble (program : List Line) : Option (List HostOp) :=
  if program.all Line.wf then some (program.flatMap Line.ops) else none

/-- A host program laid down for the block to meet, after what is pending already. -/
def State.load (s : State) (ops : List HostOp) : State := { s with pending := s.pending ++ ops.map .host }

/-- The octets `rob 0, .., rob m - 1` of a macro (spec/43_version_and_host.md R121). -/
def readBack (m : Nat) : List HostOp := (List.range m).map .readObuf

/-- The octets those reads return. -/
def obufOctets (m : Nat) (s : State) : List Byte := (List.range m).map s.readObuf

/-- The success arm of the macros `Encode` and `Decode`: read `OLEN`, then the octets (spec/43_version_and_host.md
R121, R122). -/
def macroResult (s : State) : Host.Outcome (MacroResult × State) Fault Refusal :=
  let m := s.readReg .olen
  andThen (issueAll (.readReg .olen :: readBack m) s) fun t => .next (.ok (obufOctets m s) m, t)

/-- The operations of a macro up to its command (spec/43_version_and_host.md R121, R122). -/
def macroSetup (b : List Byte) (i : Instr) : List HostOp :=
  writeRun 0 b ++ [.writeReg .ilen b.length, .writeReg .cmd (encode i).toNat]

/-- The macro `Encode(b, n)`, `n` the length of `b` (spec/43_version_and_host.md R121). -/
def encodeMacro (b : List Byte) (s : State) : Host.Outcome (MacroResult × State) Fault Refusal :=
  andThen (issueAll (macroSetup b .enc) s) fun s1 =>
    andThen (issue (.readReg .status) s1) fun s2 =>
      if errField s1.status = 0 then macroResult s2 else .next (.failed .allocationFailure, s2)

/-- The macro `Decode(s, n)`, `n` the length of `s` (spec/43_version_and_host.md R122). `ERR` is 0 to 3 after `DEC`
(spec/10_state.md R15), so the last arm is `ERR` = 3 (DEDUCED, safe, notes/assumptions/13.md). -/
def decodeMacro (chars : List Byte) (s : State) : Host.Outcome (MacroResult × State) Fault Refusal :=
  andThen (issueAll (macroSetup chars .dec) s) fun s1 =>
    andThen (issue (.readReg .status) s1) fun s2 =>
      if errField s1.status = 0 then macroResult s2
      else if errField s1.status = 1 then .next (.failed .invalidLength, s2)
      else if errField s1.status = 2 then .next (.failed .allocationFailure, s2)
      else .next (.failed .invalidCharacter, s2)

/-- The macro `GetVersion()` (spec/43_version_and_host.md R123): the value and the state after it. -/
def getVersionMacro (s : State) : Host.Outcome (Nat × State) Fault Refusal :=
  andThen (issue (.readReg .version) s) fun t => .next (s.readReg .version, t)

end Sys2Proof.Machine
end

