-- ==== Sys2Proof/Machine/Step.lean ====
section
/-! DEFINITION. One step of a block: the next event of the total order (spec/20_memory.md R40,
spec/43_version_and_host.md R117). -/

namespace Sys2Proof.Machine

/-- One step. -/
def step (s : State) : Host.Outcome State Fault Refusal := runNext s

/-- The block fetches nothing (spec/10_state.md R16): a command comes with the write of `CMD` (R18). This state has
that write as its next event, before whatever else is pending (DESIGN CHOICE, unsafe, notes/assumptions/4.md). -/
def State.withFetchWord (s : State) (nbits w : Nat) : State := s.withCommandNext (tableWord nbits w)

end Sys2Proof.Machine
end

