-- ==== Sys2Proof/Machine/Platform.lean ====
section
/-! DEFINITION. Several blocks (spec/60_exceptions.md R146): each has its own state, and a step of one is a step of
that block alone. -/

namespace Sys2Proof.Machine

/-- The blocks of a platform; they share no state (spec/60_exceptions.md R146; DESIGN CHOICE, safe,
notes/assumptions/14.md). Any blocks: two of them have unrelated reset contents if their `contentKey`s differ, which
nothing here demands (DESIGN CHOICE, unsafe, notes/assumptions/16.md). -/
abbrev Platform := List State

/-- Block `k` takes a step; a block the platform does not have cannot (DESIGN CHOICE, safe, notes/assumptions/14.md). -/
def Platform.stepAt (p : Platform) (k : Nat) : Host.Outcome Platform Fault Refusal :=
  match p[k]? with
  | some s => andThen (step s) fun t => .next (p.set k t)
  | none => .refused .noSuchBlock

/-- An interleaving: the blocks that step, in order (spec/60_exceptions.md R146). -/
def Platform.runAt : List Nat → Platform → Host.Outcome Platform Fault Refusal
  | [], p => .next p
  | k :: ks, p => andThen (p.stepAt k) (Platform.runAt ks)

/-- `n` steps of one block alone. -/
def stepTimes : (n : Nat) → State → Host.Outcome State Fault Refusal
  | 0, s => .next s
  | n + 1, s => andThen (step s) (stepTimes n)

end Sys2Proof.Machine
end

