-- ==== Sys2Proof/Safety.lean ====
section
/-! DEFINITION. What holds of a block between commands (spec/10_state.md R11 to R15, R21), in the terms statements
use. -/

namespace Sys2Proof.Machine

/-- The invariant of a block: the parameters meet their constraint (spec/00_scope.md R5), the registers hold values of
their widths (spec/10_state.md R11, R12), spec/10_state.md R21, `STATUS = 0x00` goes with `OLEN = 0`, and the buffers
are in canonical form inside their sizes (spec/20_memory.md R39). -/
structure State.Inv (s : State) : Prop where
  configOk : s.config.ok
  ilenFits : s.ilen < 2 ^ s.config.lenW
  olenFits : s.olen < 2 ^ (s.config.lenW + 1)
  olenInObuf : s.olen ≤ s.config.obufSize
  statusLegal : legalStatus s.status = true
  failedEmpty : errField s.status ≠ 0 → s.olen = 0
  freshEmpty : s.status = 0x00#8 → s.olen = 0
  ibufWf : s.ibuf.wf
  ibufWithin : s.ibuf.within s.config.ibufSize
  obufWf : s.obuf.wf
  obufWithin : s.obuf.within s.config.obufSize

/-- A command that has just ended, ended in success (spec/60_exceptions.md R138). -/
def State.succeeded (s : State) : Prop := s.status = 0x01#8

/-- What a command may not touch: everything but `OBUF`, `OLEN` and `STATUS` (spec/20_memory.md R43). -/
def sameButResult (s t : State) : Prop :=
  t = { s with obuf := t.obuf, olen := t.olen, status := t.status }

/-- The same input to a command: the length, the octets below it and the room for output
(spec/41_encoder.md R88, spec/42_decoder.md R106). -/
def sameInput (s t : State) : Prop :=
  s.ilen = t.ilen ∧ s.config.obufSize = t.config.obufSize ∧ ∀ i < s.ilen, s.readIbuf i = t.readIbuf i

/-- The same result for the host: the outcome, the length and the octets below it (spec/41_encoder.md R88,
spec/42_decoder.md R106). -/
def sameResult (s t : State) : Prop :=
  s.status = t.status ∧ s.olen = t.olen ∧ ∀ i < s.olen, s.readObuf i = t.readObuf i

end Sys2Proof.Machine
end

