-- ==== Sys2Proof/Certificates/Slice0/Obligations.lean ====
section
/-! DEFINITION. The statements about the block, from the numbered rules of spec/. A statement over "every state"
ranges over every value of the parameters and over states no run reaches; where it needs one, the invariant
`State.Inv` is its premise. -/

open Sys2Proof Sys2Proof.Machine

/-! ## Command words (spec/30_encoding.md) -/

/-- R51: the decoder of command words is total. -/
def Obligations.CommandWordsDecode : Prop :=
  decode 0x01#8 = .command .enc ∧ decode 0x02#8 = .command .dec ∧
    ∀ v : Byte, v ≠ 0x01#8 → v ≠ 0x02#8 → decode v = .illegalCommand v

/-- The words of the commands and the decoder agree in both directions (R50, R51). -/
def Obligations.DecodeEncodeAgree : Prop :=
  (∀ i : Instr, i.wf = true → decode (encode i) = .command i) ∧
    ∀ (v : Byte) (i : Instr), decode v = .command i → v = encode i

/-! ## The step (spec/43_version_and_host.md) -/

/-- R117: the host's write of `CMD` executes one command, whole, and every command ends, in success or in a
failure. -/
def Obligations.CmdWriteExecutesOneCommand : Prop :=
  ∀ (s : State) (v : Byte),
    (v = 0x01#8 → issue (.writeReg .cmd v.toNat) s = exec .enc s) ∧
    (v = 0x02#8 → issue (.writeReg .cmd v.toNat) s = exec .dec s) ∧
    (v ≠ 0x01#8 → v ≠ 0x02#8 → issue (.writeReg .cmd v.toNat) s = .next (s.raise .illegalCommand)) ∧
    ∃ t, issue (.writeReg .cmd v.toNat) s = .next t ∧ doneField t.status = true

/-- A step whose next event writes a command's word runs the command the decoder reads, and one whose next event is
any host operation does that operation; what the step adds is that the event is no longer pending. The queue of events
is the model's choice (DESIGN CHOICE, unsafe, notes/assumptions/4.md). -/
def Obligations.StepRunsDecodedCommand : Prop :=
  (∀ (s : State) (rest : List Event) (v : Byte) (i : Instr), s.pending = .host (.writeReg .cmd v.toNat) :: rest →
    decode v = .command i → i.wf = true → step s = exec i { s with pending := rest }) ∧
  ∀ (s : State) (rest : List Event) (op : HostOp), s.pending = .host op :: rest →
    step s = issue op { s with pending := rest }

/-- The word placed by `withFetchWord` is the next thing the block runs, with nothing else of the state changed. The
queue is the model's choice (DESIGN CHOICE, unsafe, notes/assumptions/4.md). -/
def Obligations.PlacedWordRunsNext : Prop :=
  ∀ (s : State) (i : Instr), step (s.withFetchWord 8 (encode i).toNat) = exec i s

/-- R134: the write of an illegal word to `CMD` fails with `IllegalCommand`, whatever `IBUF` and `ILEN` hold: no codec
function runs. -/
def Obligations.IllegalWordFails : Prop :=
  ∀ (s : State) (v : Byte), v ≠ 0x01#8 → v ≠ 0x02#8 →
    ∀ (n : Nat) (m : Memory), issue (.writeReg .cmd v.toNat) { s with ilen := n, ibuf := m } =
      .next { s with ilen := n, ibuf := m, olen := 0, status := 0x09#8 }

/-- R151: with nothing asked of it the block executes nothing. That a step then leaves the state as it is, is the
model's choice (DESIGN CHOICE, unsafe, notes/assumptions/4.md). -/
def Obligations.IdleBlockStandsStill : Prop := ∀ s : State, s.pending = [] → step s = .next s

/-- A host write of `IBUF` stores the one octet and changes nothing else, if the index is inside the buffer (R116). -/
def Obligations.IbufWriteStoresOneOctet : Prop :=
  ∀ (s : State) (rest : List Event) (i : Nat) (v : Byte), s.pending = .host (.writeIbuf i v) :: rest →
    i < 2 ^ s.config.lenW →
    ∃ t, step s = .next t ∧ t = { s with pending := rest, ibuf := t.ibuf } ∧
      ∀ j, t.readIbuf j = if j = i then v else s.readIbuf j

/-- Host writes of registers other than `CMD`: `ILEN` takes the value, the read-only registers take nothing, whatever
the value (R116, R37). -/
def Obligations.RegisterWrites : Prop :=
  ∀ (s : State) (rest : List Event) (v : Nat),
    (s.pending = .host (.writeReg .ilen v) :: rest → v < 2 ^ s.config.lenW →
      step s = .next { s with pending := rest, ilen := v }) ∧
    (∀ r, r = .version ∨ r = .status ∨ r = .olen → s.pending = .host (.writeReg r v) :: rest →
      step s = .next { s with pending := rest })

/-- R118: what a read of each register returns; it changes no state of the block. That the answer is kept in
`replies` is the model's choice (DESIGN CHOICE, safe, notes/assumptions/5.md). -/
def Obligations.RegisterReadsAnswer : Prop :=
  ∀ (s : State) (rest : List Event) (r : Reg), s.pending = .host (.readReg r) :: rest →
    ∃ v, step s = .next { s with pending := rest, replies := s.replies ++ [.reg r v] } ∧
      (r = .version → v = s.config.versionId.toNat) ∧ (r = .cmd → v = 0) ∧ (r = .status → v = s.status.toNat) ∧
      (r = .ilen → v = s.ilen) ∧ (r = .olen → v = s.olen)

/-- Reads of a buffer return its octet and change no state of the block, at indices inside the buffer (R116). That
the answer is kept in `replies` is the model's choice (DESIGN CHOICE, safe, notes/assumptions/5.md). -/
def Obligations.BufferReadsAnswer : Prop :=
  ∀ (s : State) (rest : List Event) (i : Nat),
    (s.pending = .host (.readIbuf i) :: rest → i < 2 ^ s.config.lenW →
      step s = .next { s with pending := rest, replies := s.replies ++ [.ibuf i (s.readIbuf i)] }) ∧
    (s.pending = .host (.readObuf i) :: rest → i < s.config.obufSize →
      step s = .next { s with pending := rest, replies := s.replies ++ [.obuf i (s.readObuf i)] })

/-- An operation the hardware cannot express is refused by name: the model's choice (DESIGN CHOICE, safe,
notes/assumptions/6.md). -/
def Obligations.OutOfRangeRefused : Prop :=
  ∀ (s : State) (rest : List Event) (i : Nat) (v : Byte) (n : Nat),
    (s.pending = .host (.writeIbuf i v) :: rest → 2 ^ s.config.lenW ≤ i → step s = .refused .indexOutsideIbuf) ∧
    (s.pending = .host (.readIbuf i) :: rest → 2 ^ s.config.lenW ≤ i → step s = .refused .indexOutsideIbuf) ∧
    (s.pending = .host (.readObuf i) :: rest → s.config.obufSize ≤ i → step s = .refused .indexOutsideObuf) ∧
    (s.pending = .host (.writeReg .ilen n) :: rest → 2 ^ s.config.lenW ≤ n →
      step s = .refused .valueOutsideRegister) ∧
    (s.pending = .host (.writeReg .cmd n) :: rest → 256 ≤ n → step s = .refused .valueOutsideRegister)

/-- Every step ends in a next state unless its operation cannot be expressed; no step faults. -/
def Obligations.StepCompletes : Prop :=
  (∀ s : State, (∀ e rest, s.pending = e :: rest → e.wf s.config = true) → ∃ t, step s = .next t) ∧
    ∀ (s : State) (f : Fault), step s ≠ .fault f

/-- Operations loaded for an idle block run in the order they were loaded, each on what the earlier ones left, exactly
as issued one after another. The queue is the model's choice (DESIGN CHOICE, unsafe, notes/assumptions/4.md). -/
def Obligations.LoadedOperationsRunInOrder : Prop :=
  ∀ (ops : List HostOp) (s : State), s.pending = [] → stepTimes ops.length (s.load ops) = issueAll ops s

/-! ## Reset and the machine between commands (spec/10_state.md, spec/70_reset_and_hazards.md) -/

/-- R22: the state after reset; the content of the buffers is unspecified, a free value of `Config` octet by octet,
whatever that value is (DESIGN CHOICE, safe, notes/assumptions/2.md); how it relates to another block's is the model's
choice (DESIGN CHOICE, unsafe, notes/assumptions/16.md). -/
def Obligations.ResetLeavesSpecifiedState : Prop :=
  State.reset.readReg .version = State.reset.config.versionId.toNat ∧ State.reset.readReg .cmd = 0 ∧
    State.reset.status = 0x00#8 ∧ State.reset.ilen = 0 ∧ State.reset.olen = 0 ∧ State.reset.config.ok ∧
    (∀ i, State.reset.readIbuf i = Config.ibufAtReset State.reset.contentKey State.reset.resets i) ∧
    ∀ i, State.reset.readObuf i = Config.obufAtReset State.reset.contentKey State.reset.resets i

/-- A reset by the platform, at any point between two operations, leaves the registers as R22 says and every octet at
a new free value; the parameters stay. The model's choices are: that the content key stays (DESIGN CHOICE, unsafe,
notes/assumptions/16.md), that the free value depends on nothing the block held or did before (DESIGN CHOICE, unsafe,
notes/assumptions/17.md), and that what is pending and what was answered stay (DESIGN CHOICE, unsafe,
notes/assumptions/7.md). -/
def Obligations.PlatformResetFromAnyState : Prop :=
  ∀ (s : State) (rest : List Event), s.pending = .reset :: rest →
    ∃ t, step s = .next t ∧ t.status = 0x00#8 ∧ t.ilen = 0 ∧ t.olen = 0 ∧ t.readReg .cmd = 0 ∧
      t.config = s.config ∧ t.contentKey = s.contentKey ∧ t.pending = rest ∧ t.replies = s.replies ∧
      (∀ i, t.readIbuf i = Config.ibufAtReset s.contentKey (s.resets + 1) i) ∧
      ∀ i, t.readObuf i = Config.obufAtReset s.contentKey (s.resets + 1) i

/-- `Reset is the only event that can return STATUS to 0x00` (a sentence of R150). -/
def Obligations.OnlyResetClearsStatus : Prop :=
  ∀ s t : State, step s = .next t → s.status ≠ 0x00#8 → t.status = 0x00#8 → ∃ rest, s.pending = .reset :: rest

/-- `ILEN` changes only by a host write of it or a reset, an octet of `IBUF` only by a host write at its index or a
reset (sentences of R11, R13, R37). -/
def Obligations.InputChangesOnlyByHost : Prop :=
  ∀ s t : State, step s = .next t → (∀ rest, s.pending ≠ .reset :: rest) →
    (t.ilen ≠ s.ilen → ∃ rest, s.pending = .host (.writeReg .ilen t.ilen) :: rest) ∧
    ∀ i, t.readIbuf i ≠ s.readIbuf i → ∃ rest, s.pending = .host (.writeIbuf i (t.readIbuf i)) :: rest

/-- `OBUF` changes only by a command that succeeds, below its output length, or a reset (sentences of R14, R37,
R137). -/
def Obligations.OutputChangesOnlyBySuccess : Prop :=
  ∀ s t : State, step s = .next t → (∀ rest, s.pending ≠ .reset :: rest) →
    ∀ i, t.readObuf i ≠ s.readObuf i →
      t.status = 0x01#8 ∧ i < t.olen ∧
        ∃ j rest, s.pending = .host (.writeReg .cmd (encode j).toNat) :: rest

/-- No step changes a parameter, so `VERSION` reads the same for ever (R19). -/
def Obligations.VersionNeverChanges : Prop :=
  ∀ s t : State, step s = .next t → t.config = s.config ∧ t.readReg .version = s.config.versionId.toNat

/-- Every step keeps the invariant of a block. -/
def Obligations.StepKeepsInvariant : Prop := ∀ s t : State, s.Inv → step s = .next t → t.Inv

/-- The reset state meets the invariant. -/
def Obligations.ResetMeetsInvariant : Prop := State.reset.Inv

/-! ## The lookups (spec/40_alphabet_lookup.md) -/

/-- R70: `ALPHA` by the ranges of sextets. -/
def Obligations.AlphaFollowsItsRanges : Prop :=
  ∀ s : Sextet,
    (s.toNat ≤ 25 → (alpha s).toNat = 0x41 + s.toNat) ∧
    (26 ≤ s.toNat → s.toNat ≤ 51 → (alpha s).toNat = 0x61 + (s.toNat - 26)) ∧
    (52 ≤ s.toNat → s.toNat ≤ 61 → (alpha s).toNat = 0x30 + (s.toNat - 52)) ∧
    (s.toNat = 62 → alpha s = 0x2B#8) ∧ (s.toNat = 63 → alpha s = 0x2F#8)

/-- R71: `INV` by the ranges of codes; the pad character and every code outside the ranges is invalid; exactly 64 of
the 256 codes are valid. -/
def Obligations.InvFollowsItsRanges : Prop :=
  (∀ c : Byte,
    (0x41 ≤ c.toNat → c.toNat ≤ 0x5A → ∃ s, inv c = some s ∧ s.toNat = c.toNat - 0x41) ∧
    (0x61 ≤ c.toNat → c.toNat ≤ 0x7A → ∃ s, inv c = some s ∧ s.toNat = c.toNat - 0x61 + 26) ∧
    (0x30 ≤ c.toNat → c.toNat ≤ 0x39 → ∃ s, inv c = some s ∧ s.toNat = c.toNat - 0x30 + 52) ∧
    (c = 0x2B#8 → inv c = some 62#6) ∧ (c = 0x2F#8 → inv c = some 63#6) ∧
    (¬ (0x41 ≤ c.toNat ∧ c.toNat ≤ 0x5A) → ¬ (0x61 ≤ c.toNat ∧ c.toNat ≤ 0x7A) →
      ¬ (0x30 ≤ c.toNat ∧ c.toNat ≤ 0x39) → c ≠ 0x2B#8 → c ≠ 0x2F#8 → inv c = none)) ∧
  inv 0x3D#8 = none ∧
  ((List.range 256).filter fun n => (inv (BitVec.ofNat 8 n)).isSome).length = 64

/-- R72: `ISPAD` holds of `0x3D` alone. -/
def Obligations.PadIsOneCharacter : Prop := ∀ c : Byte, isPad c = true ↔ c = 0x3D#8

/-- R73: the four laws of the lookups. -/
def Obligations.LookupsObeyTheirLaws : Prop :=
  (∀ s t : Sextet, alpha s = alpha t → s = t) ∧ (∀ s : Sextet, inv (alpha s) = some s) ∧
    (∀ (c : Byte) (s : Sextet), inv c = some s ↔ c = alpha s) ∧ ∀ s : Sextet, alpha s ≠ 0x3D#8

/-! ## The group integer (spec/30_encoding.md, spec/41_encoder.md, spec/42_decoder.md) -/

/-- R56 and R82: the octet side of a group, packed and taken out. -/
def Obligations.OctetSideOfGroup : Prop :=
  (∀ b1 b2 b3 : Byte,
    (pack3 b1 b2 b3).toNat = b1.toNat * 2 ^ 16 + b2.toNat * 2 ^ 8 + b3.toNat ∧
    split3 (pack3 b1 b2 b3) = (b1, b2, b3)) ∧
  ∀ w : Group, pack3 (split3 w).1 (split3 w).2.1 (split3 w).2.2 = w

/-- The sextet side of a group, packed and taken out, and each side in terms of the other, bit field by bit field. -/
def Obligations.SextetSideOfGroup : Prop :=
  (∀ s1 s2 s3 s4 : Sextet,
    (pack4 s1 s2 s3 s4).toNat = s1.toNat * 2 ^ 18 + s2.toNat * 2 ^ 12 + s3.toNat * 2 ^ 6 + s4.toNat ∧
    sextets (pack4 s1 s2 s3 s4) = (s1, s2, s3, s4) ∧
    split3 (pack4 s1 s2 s3 s4) =
      (s1 ++ s2.extractLsb' 4 2, s2.extractLsb' 0 4 ++ s3.extractLsb' 2 4, s3.extractLsb' 0 2 ++ s4)) ∧
  (∀ w : Group, pack4 (sextets w).1 (sextets w).2.1 (sextets w).2.2.1 (sextets w).2.2.2 = w) ∧
  ∀ b1 b2 b3 : Byte, sextets (pack3 b1 b2 b3) =
    (b1.extractLsb' 2 6, b1.extractLsb' 0 2 ++ b2.extractLsb' 4 4, b2.extractLsb' 0 4 ++ b3.extractLsb' 6 2,
      b3.extractLsb' 0 6)

/-- R83: the four characters of a group integer, most significant sextet first. -/
def Obligations.CharactersOfGroup : Prop :=
  ∀ w : Group, split4 w =
    (alpha (BitVec.ofNat 6 (w.toNat / 2 ^ 18 % 2 ^ 6)), alpha (BitVec.ofNat 6 (w.toNat / 2 ^ 12 % 2 ^ 6)),
      alpha (BitVec.ofNat 6 (w.toNat / 2 ^ 6 % 2 ^ 6)), alpha (BitVec.ofNat 6 (w.toNat % 2 ^ 6)))

/-! ## The encoder (spec/41_encoder.md) -/

/-- R80: the encoder's output length, always a multiple of 4, and for every input the block can be given it fits
`OLEN`. -/
def Obligations.EncoderOutputLength : Prop :=
  ∀ n : Nat, encLen n = 4 * ((n + 2) / 3) ∧ 3 * encLen n = 4 * (n + (3 - n % 3) % 3) ∧ encLen n % 4 = 0 ∧
    ∀ w, 3 ≤ w → n < 2 ^ w → encLen n < 2 ^ (w + 1)

/-- R84: how many characters the encoder overwrites with the pad, and that those were `A` before: they came of zero
sextets only. After `ENC` they are the last `ENCPAD` characters of the output. -/
def Obligations.EncoderPadReplacesZeroSextets : Prop :=
  (∀ n : Nat, (n % 3 = 0 → encPad n = 0) ∧ (n % 3 = 1 → encPad n = 2) ∧ (n % 3 = 2 → encPad n = 1) ∧
    encPad n = (3 - n % 3) % 3) ∧
  (∀ (s : State) (b1 b2 b3 c1 c2 c3 c4 : Byte), encFetch s (s.ilen / 3) = (b1, b2, b3) →
    split4 (pack3 b1 b2 b3) = (c1, c2, c3, c4) →
    (s.ilen % 3 = 1 → c3 = 0x41#8 ∧ c4 = 0x41#8 ∧ c2 = alpha (b1.extractLsb' 0 2 ++ 0#4)) ∧
    (s.ilen % 3 = 2 → c4 = 0x41#8 ∧ c3 = alpha (b2.extractLsb' 0 4 ++ 0#2))) ∧
  ∀ s t : State, exec .enc s = .next t → t.succeeded →
    ∀ i, encLen s.ilen - encPad s.ilen ≤ i → i < encLen s.ilen → t.readObuf i = 0x3D#8

/-- R81: the octets of an input group; the fill is 0 whatever the buffer holds beyond the input. -/
def Obligations.EncoderFetchZeroFills : Prop :=
  ∀ (s : State) (g : Nat), 3 * g < s.ilen →
    (encFetch s g).1 = s.readIbuf (3 * g) ∧
    (3 * g + 1 < s.ilen → (encFetch s g).2.1 = s.readIbuf (3 * g + 1)) ∧
    (s.ilen ≤ 3 * g + 1 → (encFetch s g).2.1 = 0x00#8) ∧
    (3 * g + 2 < s.ilen → (encFetch s g).2.2 = s.readIbuf (3 * g + 2)) ∧
    (s.ilen ≤ 3 * g + 2 → (encFetch s g).2.2 = 0x00#8)

/-- R85: `ENC`. With room for the result it completes: each group's four characters, the last `ENCPAD` overwritten
with the pad, the octets beyond unchanged, `OLEN` and `STATUS` set, nothing else changed. Without room it fails before
any write. -/
def Obligations.EncEncodesInputBuffer : Prop :=
  ∀ s : State,
    (encLen s.ilen ≤ s.config.obufSize →
      ∃ t, exec .enc s = .next t ∧ sameButResult s t ∧ t.olen = encLen s.ilen ∧ t.status = 0x01#8 ∧
        (∀ (g : Nat) (b1 b2 b3 c1 c2 c3 c4 : Byte), 3 * g < s.ilen → encFetch s g = (b1, b2, b3) →
          split4 (pack3 b1 b2 b3) = (c1, c2, c3, c4) →
          (4 * g < encLen s.ilen - encPad s.ilen → t.readObuf (4 * g) = c1) ∧
          (4 * g + 1 < encLen s.ilen - encPad s.ilen → t.readObuf (4 * g + 1) = c2) ∧
          (4 * g + 2 < encLen s.ilen - encPad s.ilen → t.readObuf (4 * g + 2) = c3) ∧
          (4 * g + 3 < encLen s.ilen - encPad s.ilen → t.readObuf (4 * g + 3) = c4)) ∧
        (∀ i, encLen s.ilen - encPad s.ilen ≤ i → i < encLen s.ilen → t.readObuf i = 0x3D#8) ∧
        ∀ i, encLen s.ilen ≤ i → t.readObuf i = s.readObuf i) ∧
    (s.config.obufSize < encLen s.ilen → exec .enc s = .next { s with olen := 0, status := 0x05#8 })

/-- The encoder's testable properties: the length law, the padding law with the pad nowhere else, and alphabet
closure. -/
def Obligations.EncoderOutputWellFormed : Prop :=
  ∀ s t : State, exec .enc s = .next t → t.succeeded →
    t.olen = 4 * ((s.ilen + 2) / 3) ∧
    ∀ i, i < t.olen →
      (t.readObuf i = 0x3D#8 ↔ t.olen - encPad s.ilen ≤ i) ∧
      (i < t.olen - encPad s.ilen → ∃ v : Sextet, t.readObuf i = alpha v)

/-- R87: `ENC` of the empty input succeeds for every `OBUF_SIZE`, reads and writes no buffer. -/
def Obligations.EncEmptyInput : Prop :=
  ∀ s : State, s.ilen = 0 → exec .enc s = .next { s with olen := 0, status := 0x01#8 }

/-- R88: `ENC` is a function of its input only. -/
def Obligations.EncDependsOnInputOnly : Prop :=
  ∀ s t : State, sameInput s t →
    ∃ s' t', exec .enc s = .next s' ∧ exec .enc t = .next t' ∧ sameResult s' t'

/-! ## The decoder (spec/42_decoder.md) -/

/-- R95: the pad count looks at the last two characters only. -/
def Obligations.PadCountLooksAtLastTwo : Prop :=
  ∀ s : State,
    (s.ilen = 0 → padCnt s = 0) ∧
    (s.ilen ≠ 0 → s.ilen % 4 = 0 →
      (s.readIbuf (s.ilen - 1) ≠ 0x3D#8 → padCnt s = 0) ∧
      (s.readIbuf (s.ilen - 1) = 0x3D#8 → s.readIbuf (s.ilen - 2) ≠ 0x3D#8 → padCnt s = 1) ∧
      (s.readIbuf (s.ilen - 1) = 0x3D#8 → s.readIbuf (s.ilen - 2) = 0x3D#8 → padCnt s = 2))

/-- R96: the decoder's output length, exact for lengths that are multiples of 4 and never cut off below 0. -/
def Obligations.DecoderOutputLength : Prop :=
  ∀ s : State, s.ilen % 4 = 0 →
    decLen s.ilen (padCnt s) + padCnt s = s.ilen * 3 / 4 ∧
    decLen s.ilen (padCnt s) + padCnt s = 3 * (s.ilen / 4) ∧
    ∀ w, 3 ≤ w → s.ilen < 2 ^ w → decLen s.ilen (padCnt s) ≤ 3 * 2 ^ (w - 2)

/-- R97: the sextet of a position: 0 at a counted pad position, where the character is the pad; `INV` at every other
position, an uncounted pad character among them. -/
def Obligations.SextetOfPosition : Prop :=
  ∀ (s : State) (i : Nat), s.ilen % 4 = 0 → i < s.ilen →
    (s.ilen - padCnt s ≤ i → sextetAt s (padCnt s) i = some 0#6 ∧ s.readIbuf i = 0x3D#8) ∧
    (i < s.ilen - padCnt s → sextetAt s (padCnt s) i = inv (s.readIbuf i)) ∧
    (i < s.ilen - padCnt s → s.readIbuf i = 0x3D#8 → sextetAt s (padCnt s) i = none)

/-- R102: `DEC`. Its three failures in their order, each before any write, and its success: each group's octets below
the computed length, the octets beyond unchanged, `OLEN` and `STATUS` set, nothing else changed. -/
def Obligations.DecDecodesInputBuffer : Prop :=
  ∀ s : State,
    (s.ilen % 4 ≠ 0 → exec .dec s = .next { s with olen := 0, status := 0x03#8 }) ∧
    (s.ilen % 4 = 0 → s.config.obufSize < decLen s.ilen (padCnt s) →
      exec .dec s = .next { s with olen := 0, status := 0x05#8 }) ∧
    (s.ilen % 4 = 0 → decLen s.ilen (padCnt s) ≤ s.config.obufSize →
      (∃ i, i < s.ilen ∧ sextetAt s (padCnt s) i = none) →
      exec .dec s = .next { s with olen := 0, status := 0x07#8 }) ∧
    (s.ilen % 4 = 0 → decLen s.ilen (padCnt s) ≤ s.config.obufSize →
      (∀ i, i < s.ilen → sextetAt s (padCnt s) i ≠ none) →
      ∃ t, exec .dec s = .next t ∧ sameButResult s t ∧ t.olen = decLen s.ilen (padCnt s) ∧ t.status = 0x01#8 ∧
        (∀ (g : Nat) (v1 v2 v3 v4 : Sextet) (b1 b2 b3 : Byte), 4 * g < s.ilen →
          sextetAt s (padCnt s) (4 * g) = some v1 → sextetAt s (padCnt s) (4 * g + 1) = some v2 →
          sextetAt s (padCnt s) (4 * g + 2) = some v3 → sextetAt s (padCnt s) (4 * g + 3) = some v4 →
          split3 (pack4 v1 v2 v3 v4) = (b1, b2, b3) →
          (3 * g < t.olen → t.readObuf (3 * g) = b1) ∧
          (3 * g + 1 < t.olen → t.readObuf (3 * g + 1) = b2) ∧
          (3 * g + 2 < t.olen → t.readObuf (3 * g + 2) = b3)) ∧
        ∀ i, t.olen ≤ i → t.readObuf i = s.readObuf i)

/-- R100: `DEC` fails with `InvalidLength` exactly when the length is no multiple of 4, whatever `IBUF` holds; the
length 0 passes. -/
def Obligations.DecRejectsBadLengthExactly : Prop :=
  (∀ s : State, (∃ t, exec .dec s = .next t ∧ errField t.status = 1) ↔ s.ilen % 4 ≠ 0) ∧
  (∀ (s : State) (m : Memory), s.ilen % 4 ≠ 0 →
    exec .dec { s with ibuf := m } = .next { s with ibuf := m, olen := 0, status := 0x03#8 }) ∧
  ∀ (s t : State), s.ilen = 0 → exec .dec s = .next t → errField t.status = 0

/-- R101: past the other two checks, `DEC` fails with `InvalidCharacter` exactly when a character that is not at a
counted pad position is none of the 64; `OBUF` is then untouched. -/
def Obligations.DecRejectsBadCharacterExactly : Prop :=
  ∀ s : State, s.ilen % 4 = 0 → decLen s.ilen (padCnt s) ≤ s.config.obufSize →
    ((∃ t, exec .dec s = .next t ∧ errField t.status = 3) ↔
      ∃ i, i < s.ilen - padCnt s ∧ ∀ v : Sextet, s.readIbuf i ≠ alpha v) ∧
    ∀ t, exec .dec s = .next t → errField t.status = 3 → t = { s with olen := 0, status := 0x07#8 }

/-- R132: `AllocationFailure` exactly when the computed length exceeds `OBUF_SIZE`, before any octet of `OBUF` is
written, and by no other word; a computed length of 0 never raises it. `DEC` computes a length only when its length
check has passed. -/
def Obligations.AllocationFailsExactly : Prop :=
  ∀ s : State,
    ((∃ t, exec .enc s = .next t ∧ errField t.status = 2) ↔ s.config.obufSize < encLen s.ilen) ∧
    ((∃ t, exec .dec s = .next t ∧ errField t.status = 2) ↔
      s.ilen % 4 = 0 ∧ s.config.obufSize < decLen s.ilen (padCnt s)) ∧
    ∀ (v : Byte) (t : State), runCommand v s = .next t → errField t.status = 2 →
      (v = 0x01#8 ∨ v = 0x02#8) ∧ t = { s with olen := 0, status := 0x05#8 }

/-- The unused bits of the last group are dropped unchecked: two inputs that differ only in them give one result. -/
def Obligations.DecIgnoresUnusedBits : Prop :=
  ∀ (s t : State) (u v : Sextet), s.ilen = t.ilen → s.config.obufSize = t.config.obufSize → s.ilen % 4 = 0 →
    padCnt s = padCnt t → padCnt s ≠ 0 →
    (∀ i, i < s.ilen → i ≠ s.ilen - padCnt s - 1 → s.readIbuf i = t.readIbuf i) →
    inv (s.readIbuf (s.ilen - padCnt s - 1)) = some u → inv (t.readIbuf (s.ilen - padCnt s - 1)) = some v →
    (padCnt s = 2 → u.extractLsb' 4 2 = v.extractLsb' 4 2) →
    (padCnt s = 1 → u.extractLsb' 2 4 = v.extractLsb' 2 4) →
    ∃ s' t', exec .dec s = .next s' ∧ exec .dec t = .next t' ∧ sameResult s' t'

/-- The write guard matters only at the end: all octets of a group but the last are below the computed length, of the
last group the first `3 - p`. -/
def Obligations.DecoderGuardOnlyAtEnd : Prop :=
  ∀ (s : State) (g : Nat), s.ilen % 4 = 0 →
    (g + 1 < s.ilen / 4 → 3 * g + 2 < decLen s.ilen (padCnt s)) ∧
    (g + 1 = s.ilen / 4 → ∀ k, k < 3 → (3 * g + k < decLen s.ilen (padCnt s) ↔ k < 3 - padCnt s))

/-- R104: `DEC` of the empty input succeeds for every `OBUF_SIZE`, reads and writes no buffer. -/
def Obligations.DecEmptyInput : Prop :=
  ∀ s : State, s.ilen = 0 → exec .dec s = .next { s with olen := 0, status := 0x01#8 }

/-- R106: `DEC` is a function of its input only. -/
def Obligations.DecDependsOnInputOnly : Prop :=
  ∀ s t : State, sameInput s t →
    ∃ s' t', exec .dec s = .next s' ∧ exec .dec t = .next t' ∧ sameResult s' t'

/-! ## Failures (spec/60_exceptions.md) and `STATUS` (spec/10_state.md) -/

/-- R58 and R137: the writes of a failure, and no others, with the codes of the table; a command that fails does these
writes to the state it found and nothing before them. -/
def Obligations.FailureEntryWrites : Prop :=
  ∀ s : State,
    s.raise .invalidLength = { s with olen := 0, status := 0x03#8 } ∧
    s.raise .allocationFailure = { s with olen := 0, status := 0x05#8 } ∧
    s.raise .invalidCharacter = { s with olen := 0, status := 0x07#8 } ∧
    s.raise .illegalCommand = { s with olen := 0, status := 0x09#8 } ∧
    (∀ f : Failure, (s.raise f).status.toNat = 2 * f.code + 1 ∧ errField (s.raise f).status = f.code ∧
      doneField (s.raise f).status = true ∧ reservedField (s.raise f).status = 0) ∧
    ∀ (t : State) (v : Byte), runCommand v s = .next t →
      (errField t.status = 0 ∧ t.status = 0x01#8) ∨ ∃ f : Failure, f.code = errField t.status ∧ t = s.raise f

/-- After any write of `CMD` the fields of `STATUS` are as R15 says, `OLEN` fits the buffer, and a failure leaves it
0. -/
def Obligations.EveryCommandWritesStatus : Prop :=
  ∀ (s t : State) (v : Byte), runCommand v s = .next t →
    doneField t.status = true ∧ reservedField t.status = 0 ∧ errField t.status ≤ 4 ∧ t.status ≠ 0x00#8 ∧
    legalStatus t.status = true ∧ t.olen ≤ s.config.obufSize ∧ (errField t.status ≠ 0 → t.olen = 0) ∧
    (errField t.status = 4 ↔ v ≠ 0x01#8 ∧ v ≠ 0x02#8)

/-- No command reads `STATUS` or `OLEN`: a failure is not sticky and blocks nothing. -/
def Obligations.OldOutcomePlaysNoPart : Prop :=
  ∀ (s : State) (v : Byte) (st : BitVec 8) (n : Nat),
    runCommand v { s with status := st, olen := n } = runCommand v s

/-- A second write of the same command word with nothing between repeats the first: the state it leaves is the same,
in every field. -/
def Obligations.RepeatedCommandSameOutcome : Prop :=
  ∀ (s t : State) (v : Byte), s.obuf.wf → runCommand v s = .next t → runCommand v t = .next t

/-! ## The macros, the bus form, several blocks -/

/-- Host writes of octets from an index on store them there and nothing else, as far as the buffer goes. -/
def Obligations.TextLineStoresItsCharacters : Prop :=
  ∀ (s : State) (i : Nat) (text : List Char), (Line.wibText i text).wf = true →
    i + text.length ≤ 2 ^ s.config.lenW →
    ∃ t, issueAll (Line.wibText i text).ops s = .next t ∧ t = { s with ibuf := t.ibuf } ∧
      (∀ k (ch : Char), text[k]? = some ch → (t.readIbuf (i + k)).toNat = ch.toNat) ∧
      ∀ j, j < i ∨ i + text.length ≤ j → t.readIbuf j = s.readIbuf j

/-- The macro `Encode` returns the encoded characters with their number, or `AllocationFailure`; an input too long for
the block is refused (the refusal is the model's choice, DESIGN CHOICE, safe, notes/assumptions/6.md). -/
def Obligations.EncodeMacroOutcomes : Prop :=
  ∀ (b : List Byte) (s : State),
    (b.length < 2 ^ s.config.lenW → encLen b.length ≤ s.config.obufSize →
      ∃ t, encodeMacro b s = .next (.ok (obufOctets (encLen b.length) t) (encLen b.length), t) ∧
        t.status = 0x01#8 ∧ t.olen = encLen b.length ∧ t.ilen = b.length ∧ t.config = s.config ∧
        ∀ k (v : Byte), b[k]? = some v → t.readIbuf k = v) ∧
    (b.length < 2 ^ s.config.lenW → s.config.obufSize < encLen b.length →
      ∃ t, encodeMacro b s = .next (.failed .allocationFailure, t) ∧ t.status = 0x05#8 ∧ t.olen = 0) ∧
    (2 ^ s.config.lenW ≤ b.length → ∃ r, encodeMacro b s = .refused r)

/-- The macro `Decode` returns what the command's `STATUS` says: the octets with their number, or the failure. -/
def Obligations.DecodeMacroOutcomes : Prop :=
  ∀ (chars : List Byte) (s u t : State),
    issueAll (writeRun 0 chars ++ [.writeReg .ilen chars.length]) s = .next u → exec .dec u = .next t →
    ∃ r w, decodeMacro chars s = .next (r, w) ∧ w = { t with replies := w.replies } ∧
      (errField t.status = 0 → r = .ok (obufOctets t.olen t) t.olen) ∧
      (errField t.status = 1 → r = .failed .invalidLength) ∧
      (errField t.status = 2 → r = .failed .allocationFailure) ∧
      (errField t.status = 3 → r = .failed .invalidCharacter)

/-- The source's round trip: decoding what the block encoded gives the octets back, for every input whose encoding
fits the output buffer and can be given to the decoder. -/
def Obligations.DecodeOfEncodeIsIdentity : Prop :=
  ∀ (b : List Byte) (s : State), b.length < 2 ^ s.config.lenW → encLen b.length < 2 ^ s.config.lenW →
    encLen b.length ≤ s.config.obufSize →
    ∃ chars t u, encodeMacro b s = .next (.ok chars (encLen b.length), t) ∧
      decodeMacro chars t = .next (.ok b b.length, u) ∧ u.status = 0x01#8 ∧ u.olen = b.length

/-- R123: `GetVersion` returns `VERSION_ID`, cannot fail and changes nothing of the block. -/
def Obligations.GetVersionReturnsVersionId : Prop :=
  ∀ s : State, ∃ t, getVersionMacro s = .next (s.config.versionId.toNat, t) ∧ t = { s with replies := t.replies }

/-- The register offsets, and that an operation's bus form stands for that operation; no operation has an offset that
is not implemented (R38). -/
def Obligations.BusFormsAgree : Prop :=
  Reg.version.offset = 0x00 ∧ Reg.cmd.offset = 0x04 ∧ Reg.status.offset = 0x08 ∧ Reg.ilen.offset = 0x0C ∧
    Reg.olen.offset = 0x10 ∧ (∀ op : HostOp, op.toBus.toOp = some op) ∧
    (∀ (a : BusAccess) (op : HostOp), a.toOp = some op → op.toBus = a) ∧
    ∀ (o d : Nat) (s : State), 0x14 ≤ o →
      busAccess (.regWrite o d) s = .refused .unimplementedOffset ∧
      busAccess (.regRead o) s = .refused .unimplementedOffset

/-- Blocks are independent: after any interleaving a block is where its own steps alone take it. -/
def Obligations.BlocksRunAsIfAlone : Prop :=
  ∀ (ks : List Nat) (p q : Platform), Platform.runAt ks p = .next q →
    ∀ (k : Nat) (s : State), p[k]? = some s → ∃ t, q[k]? = some t ∧ stepTimes (ks.count k) s = .next t
end

