-- ==== Sys2Proof/Laws/Alphabet.lean ====
section
/-! SUPPORT. The lookups and the group layouts: the laws of spec/40_alphabet_lookup.md R73 and of
spec/30_encoding.md R56, R57. -/

namespace Sys2Proof.Machine

/-- The law "inverse" of spec/40_alphabet_lookup.md R73. -/
@[simp] theorem inv_alpha (s : Sextet) : inv (alpha s) = some s := by
  revert s; decide

/-- The law "distinctness" of spec/40_alphabet_lookup.md R73. -/
theorem alpha_injective {s t : Sextet} (h : alpha s = alpha t) : s = t := by
  simpa using congrArg inv h

/-- The law "outside" of spec/40_alphabet_lookup.md R73. -/
theorem inv_eq_some_iff (c : Byte) (s : Sextet) : inv c = some s ↔ c = alpha s := by
  have hall : ∀ c : Byte, ∀ s, inv c = some s → c = alpha s := by
    have : ∀ c : Byte, ((inv c).all fun s => c = alpha s) = true := by decide
    intro c s h
    simpa [h] using this c
  exact ⟨hall c s, fun h => h ▸ inv_alpha s⟩

@[simp] theorem inv_padChar : inv padChar = none := by decide

/-- The law "pad is apart" of spec/40_alphabet_lookup.md R73. -/
theorem alpha_ne_padChar (s : Sextet) : alpha s ≠ padChar := by
  intro h; simpa [h] using inv_alpha s

@[simp] theorem isPad_padChar : isPad padChar = true := by decide

@[simp] theorem isPad_alpha (s : Sextet) : isPad (alpha s) = false := by
  simpa [isPad] using alpha_ne_padChar s

theorem isPad_iff (c : Byte) : isPad c = true ↔ c = padChar := by simp [isPad]

theorem inv_isSome_iff (c : Byte) : (inv c).isSome ↔ ∃ s, c = alpha s := by
  simp only [Option.isSome_iff_exists, inv_eq_some_iff]

theorem alpha_zero : alpha 0#6 = 0x41#8 := by decide

theorem pack3_bit (b1 b2 b3 : Byte) (i : Nat) : (pack3 b1 b2 b3).getLsbD i =
    if i < 8 then b3.getLsbD i else if i < 16 then b2.getLsbD (i - 8) else b1.getLsbD (i - 16) := by
  simp only [pack3, BitVec.getLsbD_or, BitVec.getLsbD_shiftLeft, BitVec.getLsbD_setWidth]
  rcases show i < 8 ∨ 8 ≤ i ∧ i < 16 ∨ 16 ≤ i ∧ i < 24 ∨ 24 ≤ i by omega with h | ⟨h1, h2⟩ | ⟨h1, h2⟩ | h
  · simp [h, show i < 16 by omega, show i < 24 by omega]
  · simp [h2, show ¬ i < 8 by omega, show i < 24 by omega, show i - 8 < 24 by omega, BitVec.getLsbD_of_ge b3 i h1]
  · simp [h2, show ¬ i < 8 by omega, show ¬ i < 16 by omega, show i - 16 < 24 by omega,
      BitVec.getLsbD_of_ge b3 i (by omega), BitVec.getLsbD_of_ge b2 (i - 8) (by omega)]
  · simp [show ¬ i < 8 by omega, show ¬ i < 16 by omega, show ¬ i < 24 by omega,
      BitVec.getLsbD_of_ge b1 (i - 16) (by omega)]

theorem pack4_bit (s1 s2 s3 s4 : Sextet) (i : Nat) : (pack4 s1 s2 s3 s4).getLsbD i =
    if i < 6 then s4.getLsbD i else if i < 12 then s3.getLsbD (i - 6) else if i < 18 then s2.getLsbD (i - 12)
    else s1.getLsbD (i - 18) := by
  simp only [pack4, BitVec.getLsbD_or, BitVec.getLsbD_shiftLeft, BitVec.getLsbD_setWidth]
  rcases show i < 6 ∨ 6 ≤ i ∧ i < 12 ∨ 12 ≤ i ∧ i < 18 ∨ 18 ≤ i ∧ i < 24 ∨ 24 ≤ i by omega
    with h | ⟨h1, h2⟩ | ⟨h1, h2⟩ | ⟨h1, h2⟩ | h
  · simp [h, show i < 12 by omega, show i < 18 by omega, show i < 24 by omega]
  · simp [h2, show ¬ i < 6 by omega, show i < 18 by omega, show i < 24 by omega, show i - 6 < 24 by omega,
      BitVec.getLsbD_of_ge s4 i h1]
  · simp [h2, show ¬ i < 6 by omega, show ¬ i < 12 by omega, show i < 24 by omega, show i - 12 < 24 by omega,
      BitVec.getLsbD_of_ge s4 i (by omega), BitVec.getLsbD_of_ge s3 (i - 6) (by omega)]
  · simp [h2, show ¬ i < 6 by omega, show ¬ i < 12 by omega, show ¬ i < 18 by omega, show i - 18 < 24 by omega,
      BitVec.getLsbD_of_ge s4 i (by omega), BitVec.getLsbD_of_ge s3 (i - 6) (by omega),
      BitVec.getLsbD_of_ge s2 (i - 12) (by omega)]
  · simp [show ¬ i < 6 by omega, show ¬ i < 12 by omega, show ¬ i < 18 by omega, show ¬ i < 24 by omega,
      BitVec.getLsbD_of_ge s1 (i - 18) (by omega)]

@[simp] theorem pack4_sextets (w : Group) :
    pack4 (sextets w).1 (sextets w).2.1 (sextets w).2.2.1 (sextets w).2.2.2 = w := by
  refine BitVec.eq_of_getLsbD_eq fun i hi => ?_
  simp only [pack4_bit, sextets, BitVec.getLsbD_extractLsb']
  split_ifs with h1 h2 h3
  · simp [h1]
  · simp [show i - 6 < 6 by omega, show 6 + (i - 6) = i by omega]
  · simp [show i - 12 < 6 by omega, show 12 + (i - 12) = i by omega]
  · simp [show i - 18 < 6 by omega, show 18 + (i - 18) = i by omega]

@[simp] theorem split3_pack3 (b1 b2 b3 : Byte) : split3 (pack3 b1 b2 b3) = (b1, b2, b3) := by
  simp only [split3, Prod.mk.injEq]
  refine ⟨?_, ?_, ?_⟩ <;> refine BitVec.eq_of_getLsbD_eq fun i hi => ?_ <;>
    simp only [BitVec.getLsbD_extractLsb', pack3_bit]
  · simp [hi, show ¬ 16 + i < 8 by omega]
  · simp [hi, show 8 + i < 16 by omega]
  · simp [hi]

end Sys2Proof.Machine
end

