-- ==== Sys2Proof/Laws/Flags.lean ====
section
/-! SUPPORT. The values of `STATUS` a command can leave (spec/30_encoding.md R58). -/

namespace Sys2Proof.Machine

theorem errField_failure (f : Failure) : errField f.status = f.code := by cases f <;> rfl

theorem doneField_failure (f : Failure) : doneField f.status = true := by cases f <;> rfl

theorem reservedField_failure (f : Failure) : reservedField f.status = 0 := by cases f <;> rfl

theorem legalStatus_failure (f : Failure) : legalStatus f.status = true := by cases f <;> rfl

theorem code_ne_zero (f : Failure) : f.code ≠ 0 := by cases f <;> decide

theorem code_le_four (f : Failure) : f.code ≤ 4 := by cases f <;> decide

theorem code_injective {f g : Failure} (h : f.code = g.code) : f = g := by
  cases f <;> cases g <;> first | rfl | cases h

theorem statusSuccess_eq : statusSuccess = 0x01#8 := rfl

theorem doneField_success : doneField statusSuccess = true := rfl

theorem reservedField_success : reservedField statusSuccess = 0 := rfl

theorem legalStatus_success : legalStatus statusSuccess = true := rfl

theorem errField_success : errField statusSuccess = 0 := rfl

end Sys2Proof.Machine
end

