-- ==== Sys2Proof/Laws/State.lean ====
section
/-! SUPPORT. The fields of State under each update, one lemma per field per update. -/

namespace Sys2Proof.Machine

variable (s : State)

@[simp] theorem raise_config (f : Failure) : (s.raise f).config = s.config := rfl
@[simp] theorem raise_status (f : Failure) : (s.raise f).status = f.status := rfl
@[simp] theorem raise_ilen (f : Failure) : (s.raise f).ilen = s.ilen := rfl
@[simp] theorem raise_olen (f : Failure) : (s.raise f).olen = 0 := rfl
@[simp] theorem raise_ibuf (f : Failure) : (s.raise f).ibuf = s.ibuf := rfl
@[simp] theorem raise_obuf (f : Failure) : (s.raise f).obuf = s.obuf := rfl
@[simp] theorem raise_contentKey (f : Failure) : (s.raise f).contentKey = s.contentKey := rfl
@[simp] theorem raise_resets (f : Failure) : (s.raise f).resets = s.resets := rfl
@[simp] theorem raise_pending (f : Failure) : (s.raise f).pending = s.pending := rfl
@[simp] theorem raise_replies (f : Failure) : (s.raise f).replies = s.replies := rfl

@[simp] theorem succeed_config (m : Nat) : (s.succeed m).config = s.config := rfl
@[simp] theorem succeed_status (m : Nat) : (s.succeed m).status = statusSuccess := rfl
@[simp] theorem succeed_ilen (m : Nat) : (s.succeed m).ilen = s.ilen := rfl
@[simp] theorem succeed_olen (m : Nat) : (s.succeed m).olen = m := rfl
@[simp] theorem succeed_ibuf (m : Nat) : (s.succeed m).ibuf = s.ibuf := rfl
@[simp] theorem succeed_obuf (m : Nat) : (s.succeed m).obuf = s.obuf := rfl
@[simp] theorem succeed_contentKey (m : Nat) : (s.succeed m).contentKey = s.contentKey := rfl
@[simp] theorem succeed_resets (m : Nat) : (s.succeed m).resets = s.resets := rfl
@[simp] theorem succeed_pending (m : Nat) : (s.succeed m).pending = s.pending := rfl
@[simp] theorem succeed_replies (m : Nat) : (s.succeed m).replies = s.replies := rfl

@[simp] theorem writeIbuf_config (i : Nat) (v : Byte) : (s.writeIbuf i v).config = s.config := rfl
@[simp] theorem writeIbuf_status (i : Nat) (v : Byte) : (s.writeIbuf i v).status = s.status := rfl
@[simp] theorem writeIbuf_ilen (i : Nat) (v : Byte) : (s.writeIbuf i v).ilen = s.ilen := rfl
@[simp] theorem writeIbuf_olen (i : Nat) (v : Byte) : (s.writeIbuf i v).olen = s.olen := rfl
@[simp] theorem writeIbuf_ibuf (i : Nat) (v : Byte) : (s.writeIbuf i v).ibuf = s.ibuf.write i v := rfl
@[simp] theorem writeIbuf_obuf (i : Nat) (v : Byte) : (s.writeIbuf i v).obuf = s.obuf := rfl
@[simp] theorem writeIbuf_contentKey (i : Nat) (v : Byte) : (s.writeIbuf i v).contentKey = s.contentKey := rfl
@[simp] theorem writeIbuf_resets (i : Nat) (v : Byte) : (s.writeIbuf i v).resets = s.resets := rfl
@[simp] theorem writeIbuf_pending (i : Nat) (v : Byte) : (s.writeIbuf i v).pending = s.pending := rfl
@[simp] theorem writeIbuf_replies (i : Nat) (v : Byte) : (s.writeIbuf i v).replies = s.replies := rfl

@[simp] theorem writeObuf_config (i : Nat) (v : Byte) : (s.writeObuf i v).config = s.config := rfl
@[simp] theorem writeObuf_status (i : Nat) (v : Byte) : (s.writeObuf i v).status = s.status := rfl
@[simp] theorem writeObuf_ilen (i : Nat) (v : Byte) : (s.writeObuf i v).ilen = s.ilen := rfl
@[simp] theorem writeObuf_olen (i : Nat) (v : Byte) : (s.writeObuf i v).olen = s.olen := rfl
@[simp] theorem writeObuf_ibuf (i : Nat) (v : Byte) : (s.writeObuf i v).ibuf = s.ibuf := rfl
@[simp] theorem writeObuf_obuf (i : Nat) (v : Byte) : (s.writeObuf i v).obuf = s.obuf.write i v := rfl
@[simp] theorem writeObuf_contentKey (i : Nat) (v : Byte) : (s.writeObuf i v).contentKey = s.contentKey := rfl
@[simp] theorem writeObuf_resets (i : Nat) (v : Byte) : (s.writeObuf i v).resets = s.resets := rfl
@[simp] theorem writeObuf_pending (i : Nat) (v : Byte) : (s.writeObuf i v).pending = s.pending := rfl
@[simp] theorem writeObuf_replies (i : Nat) (v : Byte) : (s.writeObuf i v).replies = s.replies := rfl

@[simp] theorem answer_config (r : Reply) : (s.answer r).config = s.config := rfl
@[simp] theorem answer_status (r : Reply) : (s.answer r).status = s.status := rfl
@[simp] theorem answer_ilen (r : Reply) : (s.answer r).ilen = s.ilen := rfl
@[simp] theorem answer_olen (r : Reply) : (s.answer r).olen = s.olen := rfl
@[simp] theorem answer_ibuf (r : Reply) : (s.answer r).ibuf = s.ibuf := rfl
@[simp] theorem answer_obuf (r : Reply) : (s.answer r).obuf = s.obuf := rfl
@[simp] theorem answer_contentKey (r : Reply) : (s.answer r).contentKey = s.contentKey := rfl
@[simp] theorem answer_resets (r : Reply) : (s.answer r).resets = s.resets := rfl
@[simp] theorem answer_pending (r : Reply) : (s.answer r).pending = s.pending := rfl
@[simp] theorem answer_replies (r : Reply) : (s.answer r).replies = s.replies ++ [r] := rfl

@[simp] theorem platformReset_config : (s.platformReset).config = s.config := rfl
@[simp] theorem platformReset_status : (s.platformReset).status = 0x00#8 := rfl
@[simp] theorem platformReset_ilen : (s.platformReset).ilen = 0 := rfl
@[simp] theorem platformReset_olen : (s.platformReset).olen = 0 := rfl
@[simp] theorem platformReset_ibuf : (s.platformReset).ibuf = [] := rfl
@[simp] theorem platformReset_obuf : (s.platformReset).obuf = [] := rfl
@[simp] theorem platformReset_contentKey : (s.platformReset).contentKey = s.contentKey := rfl
@[simp] theorem platformReset_resets : (s.platformReset).resets = s.resets + 1 := rfl
@[simp] theorem platformReset_pending : (s.platformReset).pending = s.pending := rfl
@[simp] theorem platformReset_replies : (s.platformReset).replies = s.replies := rfl

end Sys2Proof.Machine
end

