-- ==== Sys2Proof/Laws/Memory.lean ====
section
/-! SUPPORT. The buffers: read after write, the canonical form kept by every operation, indices kept inside the
buffer. -/

namespace Sys2Proof.Machine

theorem octetAt_write (m : Memory) (i j : Nat) (v : Byte) :
    (m.write i v).octetAt j = if j = i then some v else m.octetAt j := by
  induction m with
  | nil =>
    by_cases h : j = i
    · simp [Memory.write, Memory.octetAt, h]
    · simp [Memory.write, Memory.octetAt, h, Ne.symm h]
  | cons c m ih =>
    obtain ⟨a, u⟩ := c
    simp only [Memory.write]
    split
    · by_cases h : j = i
      · simp [Memory.octetAt, h]
      · simp [Memory.octetAt, h, Ne.symm h]
    · split
      · next h => subst h; by_cases h : j = i
                  · simp [Memory.octetAt, h]
                  · simp [Memory.octetAt, h, Ne.symm h]
      · by_cases h : a = j
        · subst h; simp [Memory.octetAt]; omega
        · simp [Memory.octetAt, h, ih]

theorem mem_write {m : Memory} {i : Nat} {v : Byte} {c : Host.Cell} (h : c ∈ m.write i v) : c = (i, v) ∨ c ∈ m := by
  induction m with
  | nil => simpa [Memory.write] using h
  | cons d m ih =>
    simp only [Memory.write] at h
    split at h
    · simpa using h
    · split at h
      · rcases List.mem_cons.1 h with h | h
        · exact .inl h
        · exact .inr (List.mem_cons_of_mem _ h)
      · rcases List.mem_cons.1 h with h | h
        · exact .inr (h ▸ List.mem_cons_self)
        · exact (ih h).imp_right (List.mem_cons_of_mem _)

theorem write_wf {m : Memory} (h : m.wf) (i : Nat) (v : Byte) : (m.write i v).wf := by
  induction m with
  | nil => simp [Memory.write, Memory.wf]
  | cons c m ih =>
    obtain ⟨a, u⟩ := c
    have ⟨ha, hm⟩ := List.pairwise_cons.1 h
    simp only [Memory.write]
    split
    · next hi =>
      refine List.pairwise_cons.2 ⟨fun d hd => ?_, h⟩
      rcases List.mem_cons.1 hd with rfl | hd
      · exact hi
      · exact Nat.lt_trans hi (ha d hd)
    · split
      · next hi => subst hi; exact List.pairwise_cons.2 ⟨ha, hm⟩
      · refine List.pairwise_cons.2 ⟨fun d hd => ?_, ih hm⟩
        rcases mem_write hd with rfl | hd
        · show a < i; omega
        · exact ha d hd

theorem write_within {m : Memory} {n i : Nat} (h : m.within n) (hi : i < n) (v : Byte) : (m.write i v).within n := by
  intro c hc
  rcases mem_write hc with rfl | hc
  · exact hi
  · exact h c hc

theorem octetAt_none_of_lt {m : Memory} {i : Nat} (h : ∀ c ∈ m, i < c.1) : m.octetAt i = none := by
  induction m with
  | nil => rfl
  | cons c m ih =>
    obtain ⟨a, u⟩ := c
    have : i < a := h (a, u) List.mem_cons_self
    simp only [Memory.octetAt, if_neg (show ¬ a = i by omega)]
    exact ih fun d hd => h d (List.mem_cons_of_mem _ hd)

/-- Equal reads make equal data: the canonical form has one list per content. -/
theorem eq_of_octetAt {m n : Memory} (hm : m.wf) (hn : n.wf) (h : ∀ i, m.octetAt i = n.octetAt i) : m = n := by
  induction m generalizing n with
  | nil =>
    cases n with
    | nil => rfl
    | cons c n => have := h c.1; simp [Memory.octetAt] at this
  | cons c m ih =>
    obtain ⟨a, u⟩ := c
    have ⟨ha, hm'⟩ := List.pairwise_cons.1 hm
    cases n with
    | nil => have := h a; simp [Memory.octetAt] at this
    | cons d n =>
      obtain ⟨b, w⟩ := d
      have ⟨hb, hn'⟩ := List.pairwise_cons.1 hn
      have hab : a = b := by
        rcases Nat.lt_trichotomy a b with hlt | heq | hlt
        · have h1 := h a
          have h2 : Memory.octetAt ((b, w) :: n) a = none := octetAt_none_of_lt fun e he => by
            rcases List.mem_cons.1 he with rfl | he
            · exact hlt
            · exact Nat.lt_trans hlt (hb e he)
          simp [Memory.octetAt] at h1 h2
          simp [h2] at h1
        · exact heq
        · have h1 := h b
          have h2 : Memory.octetAt ((a, u) :: m) b = none := octetAt_none_of_lt fun e he => by
            rcases List.mem_cons.1 he with rfl | he
            · exact hlt
            · exact Nat.lt_trans hlt (ha e he)
          rw [h2] at h1
          simp [Memory.octetAt] at h1
      subst hab
      have huw : u = w := by simpa [Memory.octetAt] using h a
      subst huw
      refine congrArg _ (ih hm' hn' fun i => ?_)
      by_cases hi : a = i
      · subst hi
        rw [octetAt_none_of_lt ha, octetAt_none_of_lt hb]
      · simpa [Memory.octetAt, hi] using h i

@[simp] theorem readIbuf_writeIbuf (s : State) (i j : Nat) (v : Byte) :
    (s.writeIbuf i v).readIbuf j = if j = i then v else s.readIbuf j := by
  simp only [State.readIbuf, writeIbuf_ibuf, writeIbuf_contentKey, writeIbuf_resets, octetAt_write]
  split <;> rfl

@[simp] theorem readObuf_writeObuf (s : State) (i j : Nat) (v : Byte) :
    (s.writeObuf i v).readObuf j = if j = i then v else s.readObuf j := by
  simp only [State.readObuf, writeObuf_obuf, writeObuf_contentKey, writeObuf_resets, octetAt_write]
  split <;> rfl

@[simp] theorem readIbuf_writeObuf (s : State) (i j : Nat) (v : Byte) :
    (s.writeObuf i v).readIbuf j = s.readIbuf j := rfl

@[simp] theorem readObuf_writeIbuf (s : State) (i j : Nat) (v : Byte) :
    (s.writeIbuf i v).readObuf j = s.readObuf j := rfl

@[simp] theorem readObuf_raise (s : State) (f : Failure) (j : Nat) : (s.raise f).readObuf j = s.readObuf j := rfl

@[simp] theorem readIbuf_raise (s : State) (f : Failure) (j : Nat) : (s.raise f).readIbuf j = s.readIbuf j := rfl

@[simp] theorem readObuf_succeed (s : State) (m j : Nat) : (s.succeed m).readObuf j = s.readObuf j := rfl

@[simp] theorem readIbuf_succeed (s : State) (m j : Nat) : (s.succeed m).readIbuf j = s.readIbuf j := rfl

@[simp] theorem readObuf_answer (s : State) (r : Reply) (j : Nat) : (s.answer r).readObuf j = s.readObuf j := rfl

@[simp] theorem readIbuf_answer (s : State) (r : Reply) (j : Nat) : (s.answer r).readIbuf j = s.readIbuf j := rfl

/-- Two states that differ in `OBUF` alone, with the same octets written in canonical form, are the same data. -/
theorem state_eq_of_obuf {s t : State} (h : t = { s with obuf := t.obuf }) (hs : s.obuf.wf) (ht : t.obuf.wf)
    (ho : ∀ i, t.obuf.octetAt i = s.obuf.octetAt i) : t = s := by
  rw [h, eq_of_octetAt ht hs ho]

end Sys2Proof.Machine
end

