-- ==== Sys2Proof/Laws/Encoder.lean ====
section
/-! SUPPORT. What the encoder's loops do, said once: which octets of `OBUF` they write and with what, and that they
touch nothing else. -/

namespace Sys2Proof.Machine

/-- `t` is `s` but for the content of `OBUF`. -/
def OnlyObuf (s t : State) : Prop := t = { s with obuf := t.obuf }

namespace OnlyObuf

variable {s t u : State}

theorem refl (s : State) : OnlyObuf s s := rfl

theorem trans (h : OnlyObuf s t) (k : OnlyObuf t u) : OnlyObuf s u := by
  unfold OnlyObuf at *; rw [k, h]

theorem write (h : OnlyObuf s t) (i : Nat) (v : Byte) : OnlyObuf s (t.writeObuf i v) := h.trans rfl

theorem config (h : OnlyObuf s t) : t.config = s.config := by rw [h]
theorem ilen (h : OnlyObuf s t) : t.ilen = s.ilen := by rw [h]
theorem contentKey (h : OnlyObuf s t) : t.contentKey = s.contentKey := by rw [h]
theorem resets (h : OnlyObuf s t) : t.resets = s.resets := by rw [h]
theorem readIbuf (h : OnlyObuf s t) (i : Nat) : t.readIbuf i = s.readIbuf i := by rw [h]; rfl

end OnlyObuf

/-- Component `k` of four. -/
def pick4 (c : Byte × Byte × Byte × Byte) (k : Nat) : Byte :=
  if k = 0 then c.1 else if k = 1 then c.2.1 else if k = 2 then c.2.2.1 else c.2.2.2

theorem encFetch_onlyObuf {s t : State} (h : OnlyObuf s t) (g : Nat) : encFetch t g = encFetch s g := by
  simp [encFetch, h.readIbuf, h.ilen]

theorem encChars_onlyObuf {s t : State} (h : OnlyObuf s t) (g : Nat) : encChars t g = encChars s g := by
  simp [encChars, encFetch_onlyObuf h]

theorem encGroup_onlyObuf (g : Nat) (s : State) : OnlyObuf s (encGroup g s) :=
  ((((OnlyObuf.refl s).write _ _).write _ _).write _ _).write _ _

theorem encGroups_onlyObuf (k : Nat) (s : State) : OnlyObuf s (encGroups k s) := by
  induction k with
  | zero => rfl
  | succ k ih => exact ih.trans (encGroup_onlyObuf _ _)

theorem padWrites_onlyObuf (m k : Nat) (s : State) : OnlyObuf s (padWrites m k s) := by
  induction k with
  | zero => rfl
  | succ k ih => exact ih.write _ _

theorem encBody_onlyObuf (s : State) : OnlyObuf s (encBody s) :=
  (encGroups_onlyObuf _ _).trans (padWrites_onlyObuf _ _ _)

theorem encGroup_octetAt (g : Nat) (s : State) (i : Nat) : (encGroup g s).obuf.octetAt i =
    if i / 4 = g then some (pick4 (encChars s g) (i % 4)) else s.obuf.octetAt i := by
  simp only [encGroup, writeObuf_obuf, octetAt_write]
  by_cases hg : i / 4 = g
  · rw [if_pos hg]
    rcases show i = 4 * g ∨ i = 4 * g + 1 ∨ i = 4 * g + 2 ∨ i = 4 * g + 3 by omega with h | h | h | h <;>
      subst h <;> simp [pick4, Nat.add_mod]
  · rw [if_neg (by omega), if_neg (by omega), if_neg (by omega), if_neg (by omega), if_neg hg]

theorem encGroups_octetAt (k : Nat) (s : State) (i : Nat) : (encGroups k s).obuf.octetAt i =
    if i < 4 * k then some (pick4 (encChars s (i / 4)) (i % 4)) else s.obuf.octetAt i := by
  induction k with
  | zero => simp [encGroups]
  | succ k ih =>
    rw [encGroups, encGroup_octetAt, ih, encChars_onlyObuf (encGroups_onlyObuf k s)]
    by_cases h : i / 4 = k
    · rw [if_pos h, if_pos (by omega), h]
    · rw [if_neg h]
      by_cases h2 : i < 4 * k
      · rw [if_pos h2, if_pos (by omega)]
      · rw [if_neg h2, if_neg (by omega)]

theorem padWrites_octetAt (m k : Nat) (s : State) (i : Nat) (hk : k ≤ m) : (padWrites m k s).obuf.octetAt i =
    if m - k ≤ i ∧ i < m then some padChar else s.obuf.octetAt i := by
  induction k with
  | zero => rw [padWrites, if_neg (by omega)]
  | succ k ih =>
    rw [padWrites, writeObuf_obuf, octetAt_write, ih (by omega)]
    by_cases h : i = m - (k + 1)
    · rw [if_pos h, if_pos (by omega)]
    · rw [if_neg h]
      by_cases h2 : m - k ≤ i ∧ i < m
      · rw [if_pos h2, if_pos (by omega)]
      · rw [if_neg h2, if_neg (by omega)]

theorem encPad_le_encLen (n : Nat) : encPad n ≤ encLen n := by
  unfold encPad encLen; split
  · omega
  · split <;> omega

theorem encLen_div (n : Nat) : encLen n / 4 = (n + 2) / 3 := by unfold encLen; omega

theorem encLen_fits {w n : Nat} (hw : 3 ≤ w) (hn : n < 2 ^ w) : encLen n < 2 ^ (w + 1) := by
  have : 2 ^ 3 ≤ 2 ^ w := Nat.pow_le_pow_right (by decide) hw
  rw [Nat.pow_succ]; unfold encLen; omega

/-- What `ENC` leaves at an index of `OBUF`: below the pad the group's character, then the pad, then what was there. -/
theorem encBody_octetAt (s : State) (i : Nat) : (encBody s).obuf.octetAt i =
    if i < encLen s.ilen - encPad s.ilen then some (pick4 (encChars s (i / 4)) (i % 4))
    else if i < encLen s.ilen then some padChar else s.obuf.octetAt i := by
  have hp := encPad_le_encLen s.ilen
  have h4 : 4 * (encLen s.ilen / 4) = encLen s.ilen := by rw [encLen_div, encLen]
  rw [encBody, padWrites_octetAt _ _ _ _ hp, encGroups_octetAt, h4]
  by_cases h1 : i < encLen s.ilen - encPad s.ilen
  · rw [if_neg (by omega), if_pos (by omega), if_pos h1]
  · rw [if_neg h1]
    by_cases h2 : i < encLen s.ilen
    · rw [if_pos (by omega), if_pos h2]
    · rw [if_neg (by omega), if_neg h2, if_neg h2]

theorem encBody_readObuf (s : State) (i : Nat) : (encBody s).readObuf i =
    if i < encLen s.ilen - encPad s.ilen then pick4 (encChars s (i / 4)) (i % 4)
    else if i < encLen s.ilen then padChar else s.readObuf i := by
  rw [State.readObuf, encBody_octetAt, (encBody_onlyObuf s).contentKey, (encBody_onlyObuf s).resets]
  split
  · rfl
  · split <;> rfl

theorem padWrites_wf (m k : Nat) {s : State} (h : s.obuf.wf) : (padWrites m k s).obuf.wf := by
  induction k with
  | zero => exact h
  | succ k ih => exact write_wf ih _ _

theorem encGroups_wf (k : Nat) {s : State} (h : s.obuf.wf) : (encGroups k s).obuf.wf := by
  induction k with
  | zero => exact h
  | succ k ih => exact write_wf (write_wf (write_wf (write_wf ih _ _) _ _) _ _) _ _

theorem encBody_wf {s : State} (h : s.obuf.wf) : (encBody s).obuf.wf := padWrites_wf _ _ (encGroups_wf _ h)

theorem padWrites_within {m k n : Nat} {s : State} (h : s.obuf.within n) (hk : k ≤ m) (hm : m ≤ n) :
    (padWrites m k s).obuf.within n := by
  induction k with
  | zero => exact h
  | succ k ih => exact write_within (ih (by omega)) (by omega) _

theorem encGroups_within {k n : Nat} {s : State} (h : s.obuf.within n) (hk : 4 * k ≤ n) :
    (encGroups k s).obuf.within n := by
  induction k with
  | zero => exact h
  | succ k ih =>
    exact write_within (write_within (write_within (write_within (ih (by omega)) (by omega) _) (by omega) _)
      (by omega) _) (by omega) _

theorem encBody_within {s : State} {n : Nat} (h : s.obuf.within n) (hn : encLen s.ilen ≤ n) :
    (encBody s).obuf.within n :=
  padWrites_within (encGroups_within h (by rw [encLen_div]; unfold encLen at hn; omega)) (encPad_le_encLen _) hn

/-- Everything `ENC` can do: fail with `AllocationFailure`, or write its output (spec/41_encoder.md R85). -/
theorem execEnc_cases (s : State) :
    (s.config.obufSize < encLen s.ilen ∧ execEnc s = .next (s.raise .allocationFailure)) ∨
    (encLen s.ilen ≤ s.config.obufSize ∧ execEnc s = .next ((encBody s).succeed (encLen s.ilen))) := by
  unfold execEnc
  split
  · next h => exact .inl ⟨h, rfl⟩
  · next h => exact .inr ⟨by omega, rfl⟩

end Sys2Proof.Machine
end

