-- ==== Sys2Proof/Laws/Decoder.lean ====
section
/-! SUPPORT. What the decoder's check and loops do, said once: which octets of `OBUF` they write and with what, and
that they touch nothing else. -/

namespace Sys2Proof.Machine

/-- Component `k` of three. -/
def pick3 (b : Byte × Byte × Byte) (k : Nat) : Byte :=
  if k = 0 then b.1 else if k = 1 then b.2.1 else b.2.2

theorem padCnt_onlyObuf {s t : State} (h : OnlyObuf s t) : padCnt t = padCnt s := by
  simp [padCnt, h.readIbuf, h.ilen]

theorem sextetAt_onlyObuf {s t : State} (h : OnlyObuf s t) (p i : Nat) : sextetAt t p i = sextetAt s p i := by
  simp [sextetAt, h.readIbuf, h.ilen]

theorem decWord_onlyObuf {s t : State} (h : OnlyObuf s t) (p g : Nat) : decWord t p g = decWord s p g := by
  simp [decWord, sextetValue, sextetAt_onlyObuf h]

theorem padCnt_le (s : State) : padCnt s ≤ 2 := by
  unfold padCnt; split
  · omega
  · split
    · omega
    · split <;> omega

theorem padCnt_zero {s : State} (h : s.ilen = 0) : padCnt s = 0 := by simp [padCnt, h]

theorem decLen_le (n p : Nat) : decLen n p ≤ 3 * (n / 4) := Nat.sub_le _ _

theorem decLen_fits {w n : Nat} (p : Nat) (hn : n < 2 ^ w) : decLen n p < 2 ^ (w + 1) := by
  have := decLen_le n p
  rw [Nat.pow_succ]; omega

/-- The character check passes exactly when every position has a sextet (spec/42_decoder.md R101). -/
theorem charsValid_iff (s : State) (p k : Nat) : charsValid s p k = true ↔ ∀ i < k, (sextetAt s p i).isSome := by
  induction k with
  | zero => simp [charsValid]
  | succ k ih =>
    rw [charsValid, Bool.and_eq_true, ih]
    constructor
    · rintro ⟨h, hk⟩ i hi
      rcases Nat.lt_or_eq_of_le (Nat.le_of_lt_succ hi) with hi | rfl
      · exact h i hi
      · exact hk
    · exact fun h => ⟨fun i hi => h i (by omega), h k (by omega)⟩

/-- After the check the default of `sextetValue` is never taken. -/
theorem charsValid_isSome {s : State} {p k i : Nat} (h : charsValid s p k = true) (hi : i < k) :
    sextetAt s p i = some (sextetValue s p i) := by
  obtain ⟨v, hv⟩ := Option.isSome_iff_exists.1 ((charsValid_iff s p k).1 h i hi)
  simp [sextetValue, hv]

theorem decPut_onlyObuf {s : State} {m : Nat} {b : Byte} {r : Nat × State} (h : OnlyObuf s r.2) :
    OnlyObuf s (decPut m b r).2 := by
  unfold decPut; split
  · exact h.write _ _
  · exact h

theorem decPut_index {m x : Nat} {b : Byte} {r : Nat × State} (h : r.1 = min x m) :
    (decPut m b r).1 = min (x + 1) m := by
  unfold decPut; split
  · show r.1 + 1 = _; omega
  · omega

theorem decPut_octetAt {m x : Nat} {b : Byte} {r : Nat × State} (h : r.1 = min x m) (i : Nat) :
    (decPut m b r).2.obuf.octetAt i = if i = x ∧ x < m then some b else r.2.obuf.octetAt i := by
  unfold decPut; split
  · rw [writeObuf_obuf, octetAt_write]
    by_cases hi : i = x
    · rw [if_pos (by omega), if_pos (by omega)]
    · rw [if_neg (by omega), if_neg (by omega)]
  · rw [if_neg (by omega)]

theorem decPut_wf {m : Nat} {b : Byte} {r : Nat × State} (h : r.2.obuf.wf) : (decPut m b r).2.obuf.wf := by
  unfold decPut; split
  · exact write_wf h _ _
  · exact h

theorem decPut_within {m n : Nat} {b : Byte} {r : Nat × State} (h : r.2.obuf.within n) (hm : m ≤ n) :
    (decPut m b r).2.obuf.within n := by
  unfold decPut; split
  · exact write_within h (by omega) _
  · exact h

theorem decGroup_onlyObuf {s : State} {p m g : Nat} {r : Nat × State} (h : OnlyObuf s r.2) :
    OnlyObuf s (decGroup p m g r).2 :=
  decPut_onlyObuf (decPut_onlyObuf (decPut_onlyObuf h))

theorem decGroups_onlyObuf (p m k : Nat) (s : State) : OnlyObuf s (decGroups p m k s).2 := by
  induction k with
  | zero => rfl
  | succ k ih => exact decGroup_onlyObuf ih

theorem decBody_onlyObuf (s : State) : OnlyObuf s (decBody s) := decGroups_onlyObuf _ _ _ _

theorem decGroups_index (p m k : Nat) (s : State) : (decGroups p m k s).1 = min (3 * k) m := by
  induction k with
  | zero => simp [decGroups]
  | succ k ih => exact decPut_index (decPut_index (decPut_index ih))

/-- The running output index is the number of octets offered, cut off at the computed length; the octets written are
those below it (spec/42_decoder.md R98, R102, R105). -/
theorem decGroups_octetAt (p m k : Nat) (s : State) (i : Nat) : (decGroups p m k s).2.obuf.octetAt i =
    if i < min (3 * k) m then some (pick3 (split3 (decWord s p (i / 3))) (i % 3)) else s.obuf.octetAt i := by
  induction k with
  | zero => simp [decGroups]
  | succ k ih =>
    have h1 := decGroups_index p m k s
    have hi : i = 3 * (i / 3) + i % 3 := by omega
    rw [decGroups, decGroup, decPut_octetAt (decPut_index (decPut_index h1)), decPut_octetAt (decPut_index h1),
      decPut_octetAt h1, ih, decWord_onlyObuf (decGroups_onlyObuf p m k s)]
    by_cases hk : i / 3 = k
    · rcases show i % 3 = 0 ∨ i % 3 = 1 ∨ i % 3 = 2 by omega with h | h | h
      · rw [if_neg (by omega), if_neg (by omega)]
        by_cases hm : i < m
        · rw [if_pos (by omega), if_pos (by omega), hk, h]; rfl
        · rw [if_neg (by omega), if_neg (by omega), if_neg (by omega)]
      · rw [if_neg (by omega)]
        by_cases hm : i < m
        · rw [if_pos (by omega), if_pos (by omega), hk, h]; rfl
        · rw [if_neg (by omega), if_neg (by omega), if_neg (by omega), if_neg (by omega)]
      · by_cases hm : i < m
        · rw [if_pos (by omega), if_pos (by omega), hk, h]; rfl
        · rw [if_neg (by omega), if_neg (by omega), if_neg (by omega), if_neg (by omega), if_neg (by omega)]
    · rw [if_neg (by omega), if_neg (by omega), if_neg (by omega)]
      by_cases hm : i < min (3 * k) m
      · rw [if_pos hm, if_pos (by omega)]
      · rw [if_neg hm, if_neg (by omega)]

/-- What `DEC` leaves at an index of `OBUF`: below the computed length the group's octet, then what was there. -/
theorem decBody_octetAt (s : State) (i : Nat) : (decBody s).obuf.octetAt i =
    if i < decLen s.ilen (padCnt s) then some (pick3 (split3 (decWord s (padCnt s) (i / 3))) (i % 3))
    else s.obuf.octetAt i := by
  rw [decBody, decGroups_octetAt, Nat.min_eq_right (decLen_le _ _)]

theorem decBody_readObuf (s : State) (i : Nat) : (decBody s).readObuf i =
    if i < decLen s.ilen (padCnt s) then pick3 (split3 (decWord s (padCnt s) (i / 3))) (i % 3)
    else s.readObuf i := by
  rw [State.readObuf, decBody_octetAt, (decBody_onlyObuf s).contentKey, (decBody_onlyObuf s).resets]
  split <;> rfl

theorem decGroups_wf (p m k : Nat) {s : State} (h : s.obuf.wf) : (decGroups p m k s).2.obuf.wf := by
  induction k with
  | zero => exact h
  | succ k ih => exact decPut_wf (decPut_wf (decPut_wf ih))

theorem decBody_wf {s : State} (h : s.obuf.wf) : (decBody s).obuf.wf := decGroups_wf _ _ _ h

theorem decGroups_within {p m k n : Nat} {s : State} (h : s.obuf.within n) (hm : m ≤ n) :
    (decGroups p m k s).2.obuf.within n := by
  induction k with
  | zero => exact h
  | succ k ih => exact decPut_within (decPut_within (decPut_within ih hm) hm) hm

theorem decBody_within {s : State} {n : Nat} (h : s.obuf.within n) (hn : decLen s.ilen (padCnt s) ≤ n) :
    (decBody s).obuf.within n := decGroups_within h hn

/-- Everything `DEC` can do: one of three failures, in their order, or write its output (spec/42_decoder.md R102,
spec/60_exceptions.md R136). -/
theorem execDec_cases (s : State) :
    (s.ilen % 4 ≠ 0 ∧ execDec s = .next (s.raise .invalidLength)) ∨
    (s.ilen % 4 = 0 ∧ s.config.obufSize < decLen s.ilen (padCnt s) ∧
      execDec s = .next (s.raise .allocationFailure)) ∨
    (s.ilen % 4 = 0 ∧ decLen s.ilen (padCnt s) ≤ s.config.obufSize ∧ charsValid s (padCnt s) s.ilen = false ∧
      execDec s = .next (s.raise .invalidCharacter)) ∨
    (s.ilen % 4 = 0 ∧ decLen s.ilen (padCnt s) ≤ s.config.obufSize ∧ charsValid s (padCnt s) s.ilen = true ∧
      execDec s = .next ((decBody s).succeed (decLen s.ilen (padCnt s)))) := by
  unfold execDec
  split
  · next h => exact .inl ⟨h, rfl⟩
  · next h =>
    split
    · next h2 => exact .inr (.inl ⟨by omega, h2, rfl⟩)
    · next h2 =>
      split
      · next h3 => exact .inr (.inr (.inl ⟨by omega, by omega, h3, rfl⟩))
      · next h3 => exact .inr (.inr (.inr ⟨by omega, by omega, by simpa using h3, rfl⟩))

end Sys2Proof.Machine
end

