-- ==== Sys2Proof/Laws/Command.lean ====
section
/-! SUPPORT. How a command can end, said once for both commands and for illegal words. -/

namespace Sys2Proof.Machine

/-- How a command ends (spec/60_exceptions.md R137, R138): with a failure, or with `OBUF` written, kept canonical and
inside its size, and the computed length in `OLEN`. -/
def CommandEnd (s t : State) : Prop :=
  (∃ f : Failure, t = s.raise f) ∨
  (∃ u m, OnlyObuf s u ∧ m ≤ s.config.obufSize ∧
    (s.config.ok → s.ilen < 2 ^ s.config.lenW → m < 2 ^ (s.config.lenW + 1)) ∧
    (s.obuf.wf → u.obuf.wf) ∧ (s.obuf.within s.config.obufSize → u.obuf.within s.config.obufSize) ∧ t = u.succeed m)

/-- Every command ends (spec/70_reset_and_hazards.md R158). -/
theorem exec_ends (i : Instr) (s : State) : ∃ t, exec i s = .next t ∧ CommandEnd s t := by
  cases i with
  | enc =>
    rcases execEnc_cases s with ⟨_, he⟩ | ⟨h, he⟩
    · exact ⟨_, he, .inl ⟨_, rfl⟩⟩
    · exact ⟨_, he, .inr ⟨_, _, encBody_onlyObuf s, h, fun hc hi => encLen_fits hc hi, encBody_wf,
        fun hw => encBody_within hw h, rfl⟩⟩
  | dec =>
    rcases execDec_cases s with ⟨_, he⟩ | ⟨_, _, he⟩ | ⟨_, _, _, he⟩ | ⟨_, h, _, he⟩
    · exact ⟨_, he, .inl ⟨_, rfl⟩⟩
    · exact ⟨_, he, .inl ⟨_, rfl⟩⟩
    · exact ⟨_, he, .inl ⟨_, rfl⟩⟩
    · exact ⟨_, he, .inr ⟨_, _, decBody_onlyObuf s, h, fun _ hi => decLen_fits _ hi, decBody_wf,
        fun hw => decBody_within hw h, rfl⟩⟩

/-- A write of `CMD` ends (spec/43_version_and_host.md R117). -/
theorem runCommand_ends (v : Byte) (s : State) : ∃ t, runCommand v s = .next t ∧ CommandEnd s t := by
  unfold runCommand
  split
  · exact exec_ends _ _
  · exact ⟨_, rfl, .inl ⟨_, rfl⟩⟩

/-- A command changes nothing but `OBUF`, `OLEN` and `STATUS` (spec/20_memory.md R43). -/
theorem CommandEnd.frame {s t : State} (h : CommandEnd s t) :
    t = { s with obuf := t.obuf, olen := t.olen, status := t.status } := by
  rcases h with ⟨f, rfl⟩ | ⟨u, m, hu, -, -, -, -, rfl⟩
  · rfl
  · conv_lhs => rw [hu]
    rfl

theorem decode_encode (i : Instr) : decode (encode i) = .command i := by cases i <;> rfl

theorem decode_command {v : Byte} {i : Instr} (h : decode v = .command i) : v = encode i := by
  unfold decode at h
  split at h
  · next hv => cases h; exact hv
  · split at h
    · next hv => cases h; exact hv
    · cases h

end Sys2Proof.Machine
end

