-- ==== Sys2Proof/Laws/Step.lean ====
section
/-! SUPPORT. Everything a host operation and a step can do. -/

namespace Sys2Proof.Machine

/-- Everything a host operation in range can do (spec/43_version_and_host.md R116). -/
theorem perform_cases {op : HostOp} {s t : State} (h : perform op s = .next t) :
    (∃ i v, op = .writeIbuf i v ∧ t = s.writeIbuf i v) ∨
    (∃ r, t = s.answer r) ∨
    (∃ v, op = .writeReg .ilen v ∧ t = { s with ilen := v }) ∨
    (∃ v, op = .writeReg .cmd v ∧ runCommand (BitVec.ofNat 8 v) s = .next t ∧ CommandEnd s t) ∨
    t = s := by
  unfold perform at h
  split at h
  · cases h; exact .inl ⟨_, _, rfl, rfl⟩
  · cases h; exact .inr (.inl ⟨_, rfl⟩)
  · cases h; exact .inr (.inl ⟨_, rfl⟩)
  · cases h; exact .inr (.inr (.inl ⟨_, rfl, rfl⟩))
  · next v =>
    obtain ⟨u, hu, hend⟩ := runCommand_ends (BitVec.ofNat 8 v) s
    rw [hu] at h
    cases h
    exact .inr (.inr (.inr (.inl ⟨v, rfl, hu, hend⟩)))
  · cases h; exact .inr (.inr (.inr (.inr rfl)))
  · cases h; exact .inr (.inr (.inr (.inr rfl)))
  · cases h; exact .inr (.inr (.inr (.inr rfl)))
  · cases h; exact .inr (.inl ⟨_, rfl⟩)

theorem issue_of_wf {op : HostOp} {s : State} (h : op.wf s.config = true) : issue op s = perform op s := by
  simp [issue, h]

theorem issue_next {op : HostOp} {s t : State} (h : issue op s = .next t) :
    op.wf s.config = true ∧ perform op s = .next t := by
  unfold issue at h
  split at h
  · next hw => exact ⟨hw, h⟩
  · cases h

/-- A host operation in range completes (spec/70_reset_and_hazards.md R158). -/
theorem perform_completes (op : HostOp) (s : State) : ∃ t, perform op s = .next t := by
  unfold perform
  split <;> first
    | exact ⟨_, rfl⟩
    | exact (runCommand_ends _ _).imp fun _ h => h.1

/-- Everything a step can do: nothing, a reset, or one host operation in range (spec/20_memory.md R40,
spec/70_reset_and_hazards.md R150, R151). -/
theorem step_cases {s t : State} (h : step s = .next t) :
    (s.pending = [] ∧ t = s) ∨
    (∃ rest, s.pending = .reset :: rest ∧ t = { s with pending := rest }.platformReset) ∨
    (∃ op rest, s.pending = .host op :: rest ∧ op.wf s.config = true ∧
      perform op { s with pending := rest } = .next t) := by
  unfold step runNext at h
  split at h
  · next hp => cases h; exact .inl ⟨hp, rfl⟩
  · next e rest hp =>
    cases e with
    | reset => cases h; exact .inr (.inl ⟨rest, hp, rfl⟩)
    | host op =>
      obtain ⟨hw, hp'⟩ := issue_next h
      exact .inr (.inr ⟨op, rest, hp, hw, hp'⟩)

theorem step_host {s : State} {op : HostOp} {rest : List Event} (h : s.pending = .host op :: rest) :
    step s = issue op { s with pending := rest } := by
  simp [step, runNext, h, runEvent]

theorem step_reset {s : State} {rest : List Event} (h : s.pending = .reset :: rest) :
    step s = .next { s with pending := rest }.platformReset := by
  simp [step, runNext, h, runEvent]

/-- No step changes a block's content key (notes/assumptions/16.md). -/
theorem step_contentKey {s t : State} (h : step s = .next t) : t.contentKey = s.contentKey := by
  rcases step_cases h with ⟨_, rfl⟩ | ⟨_, _, rfl⟩ | ⟨_, _, _, _, hp⟩
  · rfl
  · rfl
  · rcases perform_cases hp with ⟨_, _, _, rfl⟩ | ⟨_, rfl⟩ | ⟨_, _, rfl⟩ | ⟨_, _, _, he⟩ | rfl
    · rfl
    · rfl
    · rfl
    · rw [he.frame]
    · rfl

@[simp] theorem andThen_next {α β : Type} (a : α) (f : α → Host.Outcome β Fault Refusal) :
    andThen (.next a) f = f a := rfl

@[simp] theorem andThen_refused {α β : Type} (r : Refusal) (f : α → Host.Outcome β Fault Refusal) :
    andThen (.refused r) f = .refused r := rfl

theorem issueAll_append (ops ops' : List HostOp) (s : State) :
    issueAll (ops ++ ops') s = andThen (issueAll ops s) (issueAll ops') := by
  induction ops generalizing s with
  | nil => rfl
  | cons op ops ih =>
    simp only [List.cons_append, issueAll]
    cases issue op s with
    | next t => simpa using ih t
    | fault r => cases r
    | refused r => rfl

end Sys2Proof.Machine
end

