-- ==== Sys2Proof/Laws/HostRuns.lean ====
section
/-! SUPPORT. What runs of host operations do: a run of `IBUF` writes, the read-back of `OBUF`, a macro up to its
command and after it. -/

namespace Sys2Proof.Machine

/-- Writing octets from an index on stores them there, and nothing else changes. -/
theorem writeRun_stores (b : List Byte) (i : Nat) (s : State) (h : i + b.length ≤ 2 ^ s.config.lenW) :
    ∃ t, issueAll (writeRun i b) s = .next t ∧ t = { s with ibuf := t.ibuf } ∧
      (∀ k v, b[k]? = some v → t.readIbuf (i + k) = v) ∧
      ∀ j, j < i ∨ i + b.length ≤ j → t.readIbuf j = s.readIbuf j := by
  induction b generalizing i s with
  | nil => exact ⟨s, rfl, rfl, by simp, fun _ _ => rfl⟩
  | cons v b ih =>
    simp only [List.length_cons] at h ⊢
    obtain ⟨t, ht, hf, hr, ho⟩ := ih (i + 1) (s.writeIbuf i v) (by simp; omega)
    refine ⟨t, ?_, by rw [hf]; rfl, fun k w hk => ?_, fun j hj => ?_⟩
    · show andThen (issue _ _) _ = _
      rw [issue_of_wf (by simp [HostOp.wf, Config.ibufSize]; omega)]
      exact ht
    · cases k with
      | zero =>
        simp only [List.getElem?_cons_zero, Option.some.injEq] at hk
        rw [ho _ (by omega), ← hk]; simp
      | succ k => rw [show i + (k + 1) = i + 1 + k by omega]; exact hr k w (by simpa using hk)
    · rw [ho j (by omega), readIbuf_writeIbuf, if_neg (by omega)]

/-- A macro's input, buffer and length, as the command finds it. -/
theorem macroInput_stores (b : List Byte) (s : State) (h : b.length < 2 ^ s.config.lenW) :
    ∃ u, issueAll (writeRun 0 b ++ [.writeReg .ilen b.length]) s = .next u ∧
      u = { s with ibuf := u.ibuf, ilen := b.length } ∧ ∀ k v, b[k]? = some v → u.readIbuf k = v := by
  obtain ⟨t, ht, hf, hr, -⟩ := writeRun_stores b 0 s (by omega)
  refine ⟨{ t with ilen := b.length }, ?_, ?_, fun k v hk => ?_⟩
  · rw [issueAll_append, ht, andThen_next]
    show andThen (issue _ _) _ = _
    rw [issue_of_wf (by rw [hf]; simpa [HostOp.wf] using h)]
    rfl
  · conv_lhs => rw [hf]
  · have hk' := hr k v hk
    rw [Nat.zero_add] at hk'
    exact hk'

/-- After its input a macro runs its command. -/
theorem macroSetup_runs {b : List Byte} {s u : State} (i : Instr)
    (h : issueAll (writeRun 0 b ++ [.writeReg .ilen b.length]) s = .next u) :
    issueAll (macroSetup b i) s = exec i u := by
  have hs : macroSetup b i =
      (writeRun 0 b ++ [.writeReg .ilen b.length]) ++ [.writeReg .cmd (encode i).toNat] := by simp [macroSetup]
  have he : perform (.writeReg .cmd (encode i).toNat) u = exec i u := by cases i <;> rfl
  rw [hs, issueAll_append, h, andThen_next]
  show andThen (issue _ _) _ = _
  rw [issue_of_wf (by cases i <;> rfl), he]
  cases exec i u <;> rfl

theorem issue_readReg (r : Reg) (s : State) : issue (.readReg r) s = .next (s.answer (.reg r (s.readReg r))) := rfl

/-- Reading octets of `OBUF` back changes no state of the block. -/
theorem readObufs_answer (l : List Nat) (s : State) (h : ∀ i ∈ l, i < s.config.obufSize) :
    ∃ w, issueAll (l.map .readObuf) s = .next w ∧ w = { s with replies := w.replies } := by
  induction l generalizing s with
  | nil => exact ⟨s, rfl, rfl⟩
  | cons i l ih =>
    obtain ⟨w, hw, hf⟩ := ih (s.answer (.obuf i (s.readObuf i))) fun j hj => h j (List.mem_cons_of_mem _ hj)
    refine ⟨w, ?_, by rw [hf]; rfl⟩
    show andThen (issue _ _) _ = _
    rw [issue_of_wf (by simpa [HostOp.wf] using h i List.mem_cons_self)]
    exact hw

/-- The success arm of a macro returns `OBUF` below `OLEN` and changes no state of the block. -/
theorem macroResult_returns (s : State) (h : s.olen ≤ s.config.obufSize) :
    ∃ w, macroResult s = .next (.ok (obufOctets s.olen s) s.olen, w) ∧ w = { s with replies := w.replies } := by
  obtain ⟨w, hw, hf⟩ := readObufs_answer (List.range s.olen) (s.answer (.reg .olen s.olen)) fun i hi => by
    have := List.mem_range.1 hi
    simp; omega
  refine ⟨w, ?_, by rw [hf]; rfl⟩
  have hi : issueAll (.readReg .olen :: readBack s.olen) s = .next w := hw
  show andThen (issueAll (.readReg .olen :: readBack s.olen) s) _ = _
  rw [hi]
  rfl

end Sys2Proof.Machine
end

