-- ==== Sys2Proof/Laws/PerInstr.lean ====
section
/-! SUPPORT. What holds of every command as syntax, one lemma per constructor. -/

namespace Sys2Proof.Laws.RoundTrip

/-- A well-formed command's word decodes to it (spec/30_encoding.md R51). -/
def Statement (i : Instr) : Prop := i.wf = true → decode (encode i) = .command i

theorem enc : Statement .enc := fun _ => rfl

theorem dec : Statement .dec := fun _ => rfl

end Sys2Proof.Laws.RoundTrip
end

