-- ==== Sys2Proof/Laws/Rest.lean ====
section
/-! SUPPORT. What a command does not look at: `STATUS`, `OLEN`, what is pending and what was answered
(spec/10_state.md R10). -/

namespace Sys2Proof.Machine

/-- `s` with another old outcome, other pending events and other answers. -/
def State.withRest (s : State) (st : BitVec 8) (n : Nat) (p : List Event) (l : List Reply) : State :=
  { s with status := st, olen := n, pending := p, replies := l }

variable (s : State) (st : BitVec 8) (n : Nat) (p : List Event) (l : List Reply)

theorem encGroups_withRest (k : Nat) :
    encGroups k (s.withRest st n p l) = (encGroups k s).withRest st n p l := by
  induction k with
  | zero => rfl
  | succ k ih => rw [encGroups, ih]; rfl

theorem padWrites_withRest (m k : Nat) :
    padWrites m k (s.withRest st n p l) = (padWrites m k s).withRest st n p l := by
  induction k with
  | zero => rfl
  | succ k ih => rw [padWrites, ih]; rfl

theorem encBody_withRest : encBody (s.withRest st n p l) = (encBody s).withRest st n p l := by
  unfold encBody
  rw [← padWrites_withRest, ← encGroups_withRest]
  rfl

theorem decPut_withRest (m : Nat) (b : Byte) (r : Nat × State) :
    decPut m b (r.1, r.2.withRest st n p l) = ((decPut m b r).1, (decPut m b r).2.withRest st n p l) := by
  unfold decPut
  split <;> rfl

theorem decGroup_withRest (q m g : Nat) (r : Nat × State) :
    decGroup q m g (r.1, r.2.withRest st n p l) = ((decGroup q m g r).1, (decGroup q m g r).2.withRest st n p l) := by
  unfold decGroup
  simp only [← decPut_withRest]
  rfl

theorem decGroups_withRest (q m k : Nat) :
    decGroups q m k (s.withRest st n p l) = ((decGroups q m k s).1, (decGroups q m k s).2.withRest st n p l) := by
  induction k with
  | zero => rfl
  | succ k ih => rw [decGroups, ih, decGroup_withRest]; rfl

theorem decBody_withRest : decBody (s.withRest st n p l) = (decBody s).withRest st n p l := by
  unfold decBody
  show (decGroups (padCnt s) (decLen s.ilen (padCnt s)) (s.ilen / 4) (s.withRest st n p l)).2 = _
  rw [decGroups_withRest]

theorem charsValid_withRest (q k : Nat) : charsValid (s.withRest st n p l) q k = charsValid s q k := by
  induction k with
  | zero => rfl
  | succ k ih => rw [charsValid, ih]; rfl

end Sys2Proof.Machine
end

