-- ==== Sys2Proof/Tests/Slice0.lean ====
section
/-! SUPPORT. Tests against the spec's own tables and vectors (spec/95_test_vectors.md), and a witness for the
hypotheses of every statement. -/

namespace Sys2Proof.Tests

open Sys2Proof Sys2Proof.Machine

/-- A block right after reset, with parameters, input length, input octets from index 0 and output octets from index
0. -/
def blockWith (lenW obufSize n : Nat) (input output : List Byte) : State :=
  { State.reset with
    config := { lenW := lenW, obufSize := obufSize, versionId := 20240131#32 }
    ilen := n
    ibuf := input.zipIdx.map fun x => (x.2, x.1)
    obuf := output.zipIdx.map fun x => (x.2, x.1) }

/-- That block with events pending. -/
def blockAsked (s : State) (es : List Event) : State := { s with pending := es }

/-- The next state, if there is one. -/
def nextOf (o : Host.Outcome State Fault Refusal) : Option State :=
  match o with
  | .next s => some s
  | .fault r => nomatch r
  | .refused _ => none

/-- `STATUS`, `OLEN` and the octets of `OBUF` written, after an outcome. -/
def resultOf (o : Host.Outcome State Fault Refusal) : Option (BitVec 8 × Nat × List Byte) :=
  (nextOf o).map fun s => (s.status, s.olen, s.obuf.map Prod.snd)

/-! ## Words (spec/30_encoding.md R51; vectors V225 to V238) -/

theorem test_decode_enc : decode 0b00000001#8 = .command .enc := by decide

theorem test_decode_dec : decode 0b00000010#8 = .command .dec := by decide

theorem test_decode_no_bit_ignored :
    [0x00#8, 0x03#8, 0x11#8, 0x12#8, 0x81#8, 0x82#8, 0xFF#8].map decode =
      [0x00#8, 0x03#8, 0x11#8, 0x12#8, 0x81#8, 0x82#8, 0xFF#8].map .illegalCommand := by decide

theorem test_table_words : decodeTableWord 8 0x01 = some .enc ∧ decodeTableWord 8 0x02 = some .dec ∧
    decodeTableWord 8 0x81 = none := by decide

/-! ## Well-formedness refuses each ill-formed term -/

theorem test_wf_instr : Instr.wf .enc = true ∧ Instr.wf .dec = true := by decide

theorem test_wf_ibuf_index :
    HostOp.wf ⟨3, 8, 0⟩ (.writeIbuf 7 0) = true ∧ HostOp.wf ⟨3, 8, 0⟩ (.writeIbuf 8 0) = false ∧
      HostOp.wf ⟨3, 8, 0⟩ (.readIbuf 8) = false := by decide

theorem test_wf_obuf_index : HostOp.wf ⟨3, 5, 0⟩ (.readObuf 4) = true ∧ HostOp.wf ⟨3, 5, 0⟩ (.readObuf 5) = false := by
  decide

theorem test_wf_register_value :
    HostOp.wf ⟨3, 8, 0⟩ (.writeReg .ilen 8) = false ∧ HostOp.wf ⟨3, 8, 0⟩ (.writeReg .cmd 256) = false ∧
      HostOp.wf ⟨3, 8, 0⟩ (.writeReg .status 256) = true := by decide

theorem test_wf_text : Line.wf (.wibText 0 ['T', 'Q', '=', '=']) = true ∧
    Line.wf (.wibText 0 [Char.ofNat 0xE9]) = false := by decide

theorem test_assemble : assemble [.wibText 0 ['T', '='], .wr .ilen 4, .dec] =
    some [.writeIbuf 0 0x54#8, .writeIbuf 1 0x3D#8, .writeReg .ilen 4, .writeReg .cmd 2] := by decide

/-! ## Functions (spec/95_test_vectors.md sections 2.1, 2.2, 2.4) -/

theorem test_inv_boundaries :
    [0x2B#8, 0x2F#8, 0x30#8, 0x39#8, 0x41#8, 0x5A#8, 0x61#8, 0x7A#8].map inv =
      [some 62#6, some 63#6, some 52#6, some 61#6, some 0#6, some 25#6, some 26#6, some 51#6] := by decide

theorem test_inv_neighbours :
    [0x00#8, 0x2A#8, 0x2C#8, 0x2D#8, 0x2E#8, 0x3A#8, 0x3D#8, 0x40#8, 0x5B#8, 0x5F#8, 0x60#8, 0x7B#8, 0xC1#8].all
      (fun c => (inv c).isNone) = true := by decide

theorem test_alpha_boundaries :
    [0#6, 25#6, 26#6, 51#6, 52#6, 61#6, 62#6, 63#6].map alpha =
      [0x41#8, 0x5A#8, 0x61#8, 0x7A#8, 0x30#8, 0x39#8, 0x2B#8, 0x2F#8] := by decide

theorem test_encLen : [0, 1, 2, 3, 4, 47, 190, 255].map encLen = [0, 4, 4, 4, 8, 64, 256, 340] := by decide

theorem test_encPad : [0, 1, 2, 3, 47, 49].map encPad = [0, 2, 1, 0, 1, 2] := by decide

theorem test_pack3_man : pack3 0x4D#8 0x61#8 0x6E#8 = 0x4D616E#24 := by decide

theorem test_sextets_v77 : sextets 0xA55AC3#24 = (41#6, 21#6, 43#6, 3#6) := by decide

theorem test_split4_v76 : split4 0x69B71D#24 = (0x61#8, 0x62#8, 0x63#8, 0x64#8) := by decide

theorem test_pack4_v134 : pack4 19#6 22#6 7#6 0#6 = 0x4D61C0#24 ∧ split3 0x4D61C0#24 = (0x4D#8, 0x61#8, 0xC0#8) := by
  decide

theorem test_padCnt_v116_v119_v120 :
    [[0x3D#8, 0x3D#8, 0x3D#8, 0x3D#8], [0x54#8, 0x51#8, 0x3D#8, 0x41#8], [0x54#8, 0x3D#8, 0x51#8, 0x3D#8]].map
      (fun c => padCnt (blockWith 3 8 4 c [])) = [2, 0, 1] := by decide

theorem test_status_values : [Failure.invalidLength, .allocationFailure, .invalidCharacter, .illegalCommand].map
    Failure.status = [0x03#8, 0x05#8, 0x07#8, 0x09#8] ∧ statusSuccess = 0x01#8 := by decide

/-! ## Commands (spec/95_test_vectors.md sections 2.3, 2.5, 2.6, 2.7), one step each -/

/-- V98. -/
theorem test_enc_five_octets :
    resultOf (exec .enc (blockWith 3 8 5 [0x14#8, 0xFB#8, 0x9C#8, 0x03#8, 0xD9#8] [])) =
      some (0x01#8, 8, [0x46#8, 0x50#8, 0x75#8, 0x63#8, 0x41#8, 0x39#8, 0x6B#8, 0x3D#8]) := by decide

/-- V211: `OBUF` as it was. -/
theorem test_enc_no_room :
    resultOf (exec .enc (blockWith 3 7 4 [0x4D#8, 0x61#8, 0x6E#8, 0x79#8] [0xAA#8])) =
      some (0x05#8, 0, [0xAA#8]) := by decide

/-- V168: octets beyond the result as they were. -/
theorem test_dec_two_groups :
    resultOf (exec .dec (blockWith 4 8 8 [0x46#8, 0x50#8, 0x75#8, 0x63#8, 0x41#8, 0x77#8, 0x3D#8, 0x3D#8]
      [0#8, 0#8, 0#8, 0#8, 0xBB#8])) =
      some (0x01#8, 4, [0x14#8, 0xFB#8, 0x9C#8, 0x03#8, 0xBB#8]) := by decide

/-- V205: the first group is not written either. -/
theorem test_dec_bad_character_in_last_group :
    resultOf (exec .dec (blockWith 4 8 8 [0x54#8, 0x57#8, 0x46#8, 0x75#8, 0x54#8, 0x57#8, 0x46#8, 0x2A#8] [])) =
      some (0x07#8, 0, []) := by decide

/-- A command right after reset, from the free parameters and the free buffers (R22, R87). -/
theorem test_first_command_after_reset :
    ((nextOf (step (State.reset.withFetchWord 8 0x01))).map fun s => (s.status, s.olen)) = some (0x01#8, 0) ∧
    ((nextOf (step (State.reset.withFetchWord 8 0x02))).map fun s => (s.status, s.olen)) = some (0x01#8, 0) := by
  decide

/-- V225 and V238, as steps. -/
theorem test_illegal_words :
    ((nextOf (step (State.reset.withFetchWord 8 0x00))).map fun s => (s.status, s.olen)) = some (0x09#8, 0) ∧
    ((nextOf (step (State.reset.withFetchWord 8 0xFF))).map fun s => (s.status, s.olen)) = some (0x09#8, 0) := by
  decide

/-- P5 steps 9 and 10: `CMD` reads 0, `VERSION` reads its constant. -/
theorem test_register_reads :
    (nextOf (issueAll [.readReg .cmd, .readReg .version] (blockWith 3 8 0 [] []))).map State.replies =
      some [.reg .cmd 0, .reg .version 20240131] := by decide

theorem test_memory_canonical :
    Memory.write (Memory.write (Memory.write [] 5 1#8) 2 2#8) 5 3#8 = [(2, 2#8), (5, 3#8)] := by decide

/-! ## Witnesses: the hypotheses of each statement are met, each clause at a boundary of its range -/

theorem witness_CommandWordsDecode : (0x03#8 : Byte) ≠ 0x01#8 ∧ (0x03#8 : Byte) ≠ 0x02#8 := by decide

theorem witness_DecodeEncodeAgree : Instr.wf .enc = true ∧ decode 0x02#8 = .command .dec := by decide

theorem witness_CmdWriteExecutesOneCommand :
    (0x00#8 : Byte) ≠ 0x01#8 ∧ (0x00#8 : Byte) ≠ 0x02#8 ∧ (0xFF#8 : Byte) ≠ 0x01#8 ∧ (0xFF#8 : Byte) ≠ 0x02#8 := by
  decide

theorem witness_StepRunsDecodedCommand :
    (blockAsked State.reset [.host (.writeReg .cmd (0x02#8 : Byte).toNat)]).pending =
      [.host (.writeReg .cmd (0x02#8 : Byte).toNat)] ∧ decode 0x02#8 = .command .dec ∧ Instr.wf .dec = true ∧
    (blockAsked State.reset [.host (.readReg .olen)]).pending = [.host (.readReg .olen)] := by decide

theorem witness_IllegalWordFails : (0x81#8 : Byte) ≠ 0x01#8 ∧ (0x81#8 : Byte) ≠ 0x02#8 := by decide

theorem witness_IdleBlockStandsStill : State.reset.pending = [] := rfl

theorem witness_IbufWriteStoresOneOctet :
    (blockAsked (blockWith 3 8 0 [] []) [.host (.writeIbuf 7 0x4D#8)]).pending = [.host (.writeIbuf 7 0x4D#8)] ∧
      7 < 2 ^ (blockWith 3 8 0 [] []).config.lenW := by decide

theorem witness_RegisterWrites :
    (blockAsked (blockWith 3 8 0 [] []) [.host (.writeReg .ilen 7)]).pending = [.host (.writeReg .ilen 7)] ∧
      7 < 2 ^ (blockWith 3 8 0 [] []).config.lenW ∧
      (blockAsked (blockWith 3 8 0 [] []) [.host (.writeReg .status 7)]).pending = [.host (.writeReg .status 7)] ∧
      (blockAsked (blockWith 3 8 0 [] []) [.host (.writeReg .olen 7)]).pending = [.host (.writeReg .olen 7)] ∧
      (blockAsked (blockWith 3 8 0 [] []) [.host (.writeReg .version 7)]).pending = [.host (.writeReg .version 7)] := by
  decide

theorem witness_RegisterReadsAnswer : [Reg.version, .cmd, .status, .ilen, .olen].all (fun r =>
    (blockAsked State.reset [.host (.readReg r)]).pending = [.host (.readReg r)]) = true := by decide

theorem witness_BufferReadsAnswer :
    (blockAsked (blockWith 3 5 0 [] []) [.host (.readIbuf 7)]).pending = [.host (.readIbuf 7)] ∧
      7 < 2 ^ (blockWith 3 5 0 [] []).config.lenW ∧
      (blockAsked (blockWith 3 5 0 [] []) [.host (.readObuf 4)]).pending = [.host (.readObuf 4)] ∧
      4 < (blockWith 3 5 0 [] []).config.obufSize := by decide

theorem witness_OutOfRangeRefused :
    let s := blockWith 3 5 0 [] []
    (blockAsked s [.host (.writeIbuf 8 0#8)]).pending = [.host (.writeIbuf 8 0#8)] ∧
      (blockAsked s [.host (.readIbuf 8)]).pending = [.host (.readIbuf 8)] ∧ 2 ^ s.config.lenW ≤ 8 ∧
      (blockAsked s [.host (.readObuf 5)]).pending = [.host (.readObuf 5)] ∧ s.config.obufSize ≤ 5 ∧
      (blockAsked s [.host (.writeReg .ilen 8)]).pending = [.host (.writeReg .ilen 8)] ∧
      (blockAsked s [.host (.writeReg .cmd 256)]).pending = [.host (.writeReg .cmd 256)] ∧ 256 ≤ 256 := by decide

theorem witness_StepCompletes :
    ∀ e rest, (blockAsked (blockWith 3 8 0 [] []) [.host (.readIbuf 7)]).pending = e :: rest →
      e.wf (blockWith 3 8 0 [] []).config = true := by
  intro e rest h
  cases h
  decide

theorem witness_LoadedOperationsRunInOrder : (blockWith 3 8 0 [] []).pending = [] := rfl

theorem witness_PlatformResetFromAnyState :
    (blockAsked (blockWith 3 8 3 [0x4D#8] []) [.reset]).pending = [.reset] := rfl

theorem witness_OnlyResetClearsStatus :
    let s := { blockAsked (blockWith 3 8 0 [] []) [.reset] with status := 0x03#8 }
    ∃ t, step s = .next t ∧ s.status ≠ 0x00#8 ∧ t.status = 0x00#8 := ⟨_, rfl, by decide, rfl⟩

theorem witness_InputChangesOnlyByHost :
    (let s := blockAsked (blockWith 3 8 0 [] []) [.host (.writeReg .ilen 7)]
     ∃ t, step s = .next t ∧ (∀ rest, s.pending ≠ .reset :: rest) ∧ t.ilen ≠ s.ilen) ∧
    (let s := blockAsked (blockWith 3 8 0 [0x4D#8] []) [.host (.writeIbuf 0 0x4E#8)]
     ∃ t, step s = .next t ∧ (∀ rest, s.pending ≠ .reset :: rest) ∧ t.readIbuf 0 ≠ s.readIbuf 0) :=
  ⟨⟨_, rfl, nofun, by decide⟩, ⟨_, rfl, nofun, by decide⟩⟩

theorem witness_OutputChangesOnlyBySuccess :
    let s := blockAsked (blockWith 3 8 1 [0x4D#8] [0#8]) [.host (.writeReg .cmd 1)]
    ∃ t, step s = .next t ∧ (∀ rest, s.pending ≠ .reset :: rest) ∧ t.readObuf 0 ≠ s.readObuf 0 :=
  ⟨_, rfl, nofun, by decide⟩

theorem witness_VersionNeverChanges :
    ∃ t, step (blockAsked (blockWith 3 8 0 [] []) [.host (.writeReg .version 0)]) = .next t := ⟨_, rfl⟩

/-- A state that is not the reset state: input and an earlier output, a command to come. -/
theorem witness_StepKeepsInvariant :
    let s := { blockAsked (blockWith 3 4 7 [0x4D#8, 0x61#8] [0x54#8]) [.host (.writeReg .cmd 2)] with
      status := 0x01#8, olen := 4 }
    s.Inv ∧ ∃ t, step s = .next t :=
  ⟨⟨by decide, by decide, by decide, by decide, by decide, by decide, by decide, by decide, by decide, by decide,
    by decide⟩, ⟨_, rfl⟩⟩

theorem witness_AlphaFollowsItsRanges :
    (25#6).toNat ≤ 25 ∧ 26 ≤ (26#6).toNat ∧ (51#6).toNat ≤ 51 ∧ 52 ≤ (52#6).toNat ∧ (61#6).toNat ≤ 61 ∧
      (62#6).toNat = 62 ∧ (63#6).toNat = 63 := by decide

theorem witness_InvFollowsItsRanges :
    [0x40#8, 0x5B#8, 0x60#8, 0x7B#8, 0x2A#8, 0x3A#8].all (fun c : Byte =>
      ¬ (0x41 ≤ c.toNat ∧ c.toNat ≤ 0x5A) ∧ ¬ (0x61 ≤ c.toNat ∧ c.toNat ≤ 0x7A) ∧
        ¬ (0x30 ≤ c.toNat ∧ c.toNat ≤ 0x39) ∧ c ≠ 0x2B#8 ∧ c ≠ 0x2F#8) = true := by decide

theorem witness_LookupsObeyTheirLaws : alpha 19#6 = alpha 19#6 := rfl

theorem witness_EncoderOutputLength : 3 ≤ 3 ∧ 7 < 2 ^ 3 := by decide

theorem witness_EncoderPadReplacesZeroSextets :
    (let s := blockWith 3 8 1 [0x4D#8] []
     encFetch s (s.ilen / 3) = (0x4D#8, 0x00#8, 0x00#8) ∧
       split4 (pack3 0x4D#8 0x00#8 0x00#8) = (0x54#8, 0x51#8, 0x41#8, 0x41#8) ∧ s.ilen % 3 = 1) ∧
    (let s := blockWith 3 8 2 [0x4D#8, 0x61#8] []
     encFetch s (s.ilen / 3) = (0x4D#8, 0x61#8, 0x00#8) ∧
       split4 (pack3 0x4D#8 0x61#8 0x00#8) = (0x54#8, 0x57#8, 0x45#8, 0x41#8) ∧ s.ilen % 3 = 2) ∧
    (let s := blockWith 3 8 1 [0x4D#8] []
     ∃ t, exec .enc s = .next t ∧ t.succeeded ∧ encLen s.ilen - encPad s.ilen ≤ 2 ∧ 2 < encLen s.ilen) :=
  ⟨by decide, by decide, ⟨_, rfl, rfl, by decide⟩⟩

theorem witness_EncoderFetchZeroFills :
    3 * 0 < (blockWith 3 8 2 [0x4D#8, 0x61#8] []).ilen ∧ 3 * 0 + 1 < (blockWith 3 8 2 [0x4D#8, 0x61#8] []).ilen ∧
      (blockWith 3 8 2 [0x4D#8, 0x61#8] []).ilen ≤ 3 * 0 + 2 ∧ (blockWith 3 8 1 [0x4D#8] []).ilen ≤ 3 * 0 + 1 ∧
      3 * 0 + 2 < (blockWith 3 8 3 [0x4D#8, 0x61#8, 0x6E#8] []).ilen := by decide

/-- The result exactly filling `OBUF`, and one octet too long (V206, V207). -/
theorem witness_EncEncodesInputBuffer :
    (let s := blockWith 3 4 1 [0x4D#8] []
     encLen s.ilen ≤ s.config.obufSize ∧ 3 * 0 < s.ilen ∧ encFetch s 0 = (0x4D#8, 0x00#8, 0x00#8) ∧
       split4 (pack3 0x4D#8 0x00#8 0x00#8) = (0x54#8, 0x51#8, 0x41#8, 0x41#8) ∧
       4 * 0 + 1 < encLen s.ilen - encPad s.ilen ∧ encLen s.ilen - encPad s.ilen ≤ 2) ∧
    (blockWith 3 3 1 [0x4D#8] []).config.obufSize < encLen (blockWith 3 3 1 [0x4D#8] []).ilen := by decide

theorem witness_EncoderOutputWellFormed :
    ∃ t, exec .enc (blockWith 3 4 2 [0x4D#8, 0x61#8] []) = .next t ∧ t.succeeded ∧ 3 < t.olen := ⟨_, rfl, rfl, by decide⟩

theorem witness_EncEmptyInput : (blockWith 3 0 0 [] []).ilen = 0 := rfl

/-- V106 and V109: the same input, other octets beyond it. -/
theorem witness_EncDependsOnInputOnly :
    sameInput (blockWith 3 8 1 [0x4D#8, 0x61#8] []) (blockWith 3 8 1 [0x4D#8, 0xFF#8] [0xAA#8]) :=
  ⟨rfl, rfl, by decide⟩

theorem witness_PadCountLooksAtLastTwo :
    (let s := blockWith 3 8 4 [0x54#8, 0x51#8, 0x3D#8, 0x41#8] []
     s.ilen ≠ 0 ∧ s.ilen % 4 = 0 ∧ s.readIbuf (s.ilen - 1) ≠ 0x3D#8) ∧
    (let s := blockWith 3 8 4 [0x54#8, 0x3D#8, 0x51#8, 0x3D#8] []
     s.readIbuf (s.ilen - 1) = 0x3D#8 ∧ s.readIbuf (s.ilen - 2) ≠ 0x3D#8) ∧
    (let s := blockWith 3 8 4 [0x54#8, 0x51#8, 0x3D#8, 0x3D#8] []
     s.readIbuf (s.ilen - 1) = 0x3D#8 ∧ s.readIbuf (s.ilen - 2) = 0x3D#8) ∧
    (blockWith 3 8 0 [] []).ilen = 0 := by decide

theorem witness_DecoderOutputLength :
    (blockWith 3 8 4 [0x54#8, 0x51#8, 0x3D#8, 0x3D#8] []).ilen % 4 = 0 ∧ 3 ≤ 3 ∧
      (blockWith 3 8 4 [0x54#8, 0x51#8, 0x3D#8, 0x3D#8] []).ilen < 2 ^ 3 := by decide

theorem witness_SextetOfPosition :
    let s := blockWith 3 8 4 [0x3D#8, 0x41#8, 0x3D#8, 0x3D#8] []
    s.ilen % 4 = 0 ∧ s.ilen - padCnt s ≤ 2 ∧ 1 < s.ilen - padCnt s ∧ 0 < s.ilen - padCnt s ∧
      s.readIbuf 0 = 0x3D#8 := by decide

/-- One state for each of the four outcomes (V176, V223, V224, V217). -/
theorem witness_DecDecodesInputBuffer :
    (blockWith 3 0 5 [] []).ilen % 4 ≠ 0 ∧
    (let s := blockWith 3 0 4 [0x3D#8, 0x3D#8, 0x3D#8, 0x3D#8] []
     s.ilen % 4 = 0 ∧ s.config.obufSize < decLen s.ilen (padCnt s)) ∧
    (let s := blockWith 3 1 4 [0x3D#8, 0x3D#8, 0x3D#8, 0x3D#8] []
     decLen s.ilen (padCnt s) ≤ s.config.obufSize ∧ 0 < s.ilen ∧ sextetAt s (padCnt s) 0 = none) ∧
    (let s := blockWith 3 1 4 [0x54#8, 0x51#8, 0x3D#8, 0x3D#8] []
     decLen s.ilen (padCnt s) ≤ s.config.obufSize ∧ (∀ i < s.ilen, sextetAt s (padCnt s) i ≠ none) ∧
       sextetAt s (padCnt s) 0 = some 19#6 ∧ sextetAt s (padCnt s) 1 = some 16#6 ∧
       sextetAt s (padCnt s) 2 = some 0#6 ∧ sextetAt s (padCnt s) 3 = some 0#6 ∧
       split3 (pack4 19#6 16#6 0#6 0#6) = (0x4D#8, 0x00#8, 0x00#8)) := by decide

theorem witness_DecRejectsBadLengthExactly :
    (blockWith 3 8 5 [] []).ilen % 4 ≠ 0 ∧ (blockWith 3 8 0 [] []).ilen = 0 ∧
      ∃ t, exec .dec (blockWith 3 8 0 [] []) = .next t := ⟨by decide, rfl, ⟨_, rfl⟩⟩

theorem witness_DecRejectsBadCharacterExactly :
    let s := blockWith 3 1 4 [0x54#8, 0x2A#8, 0x3D#8, 0x3D#8] []
    s.ilen % 4 = 0 ∧ decLen s.ilen (padCnt s) ≤ s.config.obufSize ∧ 1 < s.ilen - padCnt s ∧
      (∀ v : Sextet, s.readIbuf 1 ≠ alpha v) := by decide

theorem witness_AllocationFailsExactly :
    ∃ t, runCommand 0x01#8 (blockWith 3 3 1 [0x4D#8] []) = .next t ∧ errField t.status = 2 := ⟨_, rfl, by decide⟩

/-- `TQ==` and `TR==`, `TWE=` and `TWH=` (V146, V147, V145, V150). -/
theorem witness_DecIgnoresUnusedBits :
    (let s := blockWith 3 8 4 [0x54#8, 0x51#8, 0x3D#8, 0x3D#8] []
     let t := blockWith 3 8 4 [0x54#8, 0x52#8, 0x3D#8, 0x3D#8] []
     s.ilen % 4 = 0 ∧ padCnt s = padCnt t ∧ padCnt s = 2 ∧
       (∀ i < s.ilen, i ≠ s.ilen - padCnt s - 1 → s.readIbuf i = t.readIbuf i) ∧
       inv (s.readIbuf (s.ilen - padCnt s - 1)) = some 16#6 ∧ inv (t.readIbuf (s.ilen - padCnt s - 1)) = some 17#6 ∧
       (16#6).extractLsb' 4 2 = (17#6).extractLsb' 4 2) ∧
    (let s := blockWith 3 8 4 [0x54#8, 0x57#8, 0x45#8, 0x3D#8] []
     let t := blockWith 3 8 4 [0x54#8, 0x57#8, 0x48#8, 0x3D#8] []
     s.ilen % 4 = 0 ∧ padCnt s = padCnt t ∧ padCnt s = 1 ∧
       (∀ i < s.ilen, i ≠ s.ilen - padCnt s - 1 → s.readIbuf i = t.readIbuf i) ∧
       inv (s.readIbuf (s.ilen - padCnt s - 1)) = some 4#6 ∧ inv (t.readIbuf (s.ilen - padCnt s - 1)) = some 7#6 ∧
       (4#6).extractLsb' 2 4 = (7#6).extractLsb' 2 4) := by decide

theorem witness_DecoderGuardOnlyAtEnd :
    let s := blockWith 4 8 8 [0x46#8, 0x50#8, 0x75#8, 0x63#8, 0x41#8, 0x77#8, 0x3D#8, 0x3D#8] []
    s.ilen % 4 = 0 ∧ 0 + 1 < s.ilen / 4 ∧ 1 + 1 = s.ilen / 4 := by decide

theorem witness_DecEmptyInput : (blockWith 3 0 0 [] []).ilen = 0 := rfl

theorem witness_DecDependsOnInputOnly :
    sameInput (blockWith 3 8 4 [0x54#8, 0x51#8, 0x3D#8, 0x3D#8, 0x00#8] [])
      (blockWith 3 8 4 [0x54#8, 0x51#8, 0x3D#8, 0x3D#8, 0xFF#8] [0xAA#8]) := ⟨rfl, rfl, by decide⟩

theorem witness_EveryCommandWritesStatus :
    (∃ t, runCommand 0x01#8 (blockWith 3 8 1 [0x4D#8] []) = .next t ∧ errField t.status = 0) ∧
    (∃ t, runCommand 0x02#8 (blockWith 3 8 1 [0x4D#8] []) = .next t ∧ errField t.status ≠ 0) ∧
    ∃ t, runCommand 0x03#8 (blockWith 3 8 1 [0x4D#8] []) = .next t ∧ errField t.status = 4 :=
  ⟨⟨_, rfl, by decide⟩, ⟨_, rfl, by decide⟩, ⟨_, rfl, by decide⟩⟩

theorem witness_FailureEntryWrites :
    ∃ t, runCommand 0x02#8 (blockWith 3 8 4 [0x54#8, 0x2A#8, 0x46#8, 0x75#8] []) = .next t ∧
      errField t.status ≠ 0 := ⟨_, rfl, by decide⟩

theorem witness_RepeatedCommandSameOutcome :
    (blockWith 3 8 1 [0x4D#8] [0xAA#8, 0xBB#8]).obuf.wf ∧
      ∃ t, runCommand 0x01#8 (blockWith 3 8 1 [0x4D#8] [0xAA#8, 0xBB#8]) = .next t := ⟨by decide, ⟨_, rfl⟩⟩

theorem witness_TextLineStoresItsCharacters :
    Line.wf (.wibText 4 ['T', 'Q', '=', '=']) = true ∧
      4 + ['T', 'Q', '=', '='].length ≤ 2 ^ (blockWith 3 8 0 [] []).config.lenW ∧
      ['T', 'Q', '=', '='][3]? = some '=' := by decide

theorem witness_EncodeMacroOutcomes :
    [0x4D#8, 0x61#8].length < 2 ^ (blockWith 3 4 0 [] []).config.lenW ∧
      encLen [0x4D#8, 0x61#8].length ≤ (blockWith 3 4 0 [] []).config.obufSize ∧
      (blockWith 3 3 0 [] []).config.obufSize < encLen [0x4D#8, 0x61#8].length ∧
      2 ^ (blockWith 3 4 0 [] []).config.lenW ≤ (List.replicate 8 0x00#8).length := by decide

theorem witness_DecodeMacroOutcomes :
    ∃ u t, issueAll (writeRun 0 [0x54#8, 0x2A#8, 0x46#8, 0x75#8] ++ [.writeReg .ilen 4]) (blockWith 3 8 0 [] []) =
      .next u ∧ exec .dec u = .next t ∧ errField t.status = 3 := ⟨_, _, rfl, rfl, by decide⟩

/-- P3: five octets, `LEN_W` 4, `OBUF_SIZE` 8. -/
theorem witness_DecodeOfEncodeIsIdentity :
    let b := [0x14#8, 0xFB#8, 0x9C#8, 0x03#8, 0xD9#8]
    let s := blockWith 4 8 0 [] []
    b.length < 2 ^ s.config.lenW ∧ encLen b.length < 2 ^ s.config.lenW ∧ encLen b.length ≤ s.config.obufSize := by
  decide

theorem witness_BusFormsAgree :
    (BusAccess.regRead 0x10).toOp = some (.readReg .olen) ∧ 0x14 ≤ 0x14 := by decide

theorem witness_BlocksRunAsIfAlone :
    let p : Platform := [blockAsked (blockWith 3 8 0 [] []) [.host (.writeReg .cmd 1)], blockWith 4 8 0 [] []]
    (∃ q, Platform.runAt [1, 0, 1] p = .next q) ∧ p[1]? = some (blockWith 4 8 0 [] []) := ⟨⟨_, rfl⟩, rfl⟩

end Sys2Proof.Tests
end

section
/-! PROOFS. No step changes the parameters of a block, so `VERSION` keeps its value (spec/10_state.md R19,
notes/assumptions/1.md). -/

namespace Sys2Proof.Machine

@[simp] theorem readReg_version (s : State) : s.readReg .version = s.config.versionId.toNat := rfl

theorem CommandEnd.config {s t : State} (h : CommandEnd s t) : t.config = s.config := by
  rw [h.frame]

/-- No host operation changes the parameters: a command by its frame (spec/20_memory.md R43), every other operation
because it writes at most one buffer octet, `ILEN` or the host's answers. -/
theorem perform_config {op : HostOp} {s t : State} (h : perform op s = .next t) : t.config = s.config := by
  rcases perform_cases h with ⟨i, v, _, rfl⟩ | ⟨r, rfl⟩ | ⟨v, _, rfl⟩ | ⟨v, _, _, hend⟩ | rfl
  · exact writeIbuf_config s i v
  · exact answer_config s r
  · rfl
  · exact hend.config
  · rfl

/-- No step changes the parameters, a reset included (spec/70_reset_and_hazards.md R150). -/
theorem step_config {s t : State} (h : step s = .next t) : t.config = s.config := by
  rcases step_cases h with ⟨_, rfl⟩ | ⟨rest, _, rfl⟩ | ⟨op, rest, _, _, hperform⟩
  · rfl
  · exact platformReset_config { s with pending := rest }
  · have hconfig := perform_config hperform
    exact hconfig

/-- Settles O20: `VERSION` reads from the parameters, which no step changes. -/
theorem versionNeverChanges : Obligations.VersionNeverChanges := by
  intro s t h
  have hconfig : t.config = s.config := step_config h
  exact ⟨hconfig, by rw [readReg_version, hconfig]⟩

end Sys2Proof.Machine
end

section
/-! PROOFS. The decoder of command words gives every 8-bit word its meaning (spec/30_encoding.md R51). -/

namespace Sys2Proof.Machine

/-- A word that is neither command's is illegal, by that word (spec/30_encoding.md R51, R52). -/
theorem decode_eq_illegalCommand {v : Byte} (henc : v ≠ 0x01#8) (hdec : v ≠ 0x02#8) :
    decode v = .illegalCommand v := by
  rw [decode, if_neg henc, if_neg hdec]

/-- Settles O1: the two commands' words decode back to them, and every other word is illegal. -/
theorem commandWordsDecode : Obligations.CommandWordsDecode :=
  ⟨decode_encode .enc, decode_encode .dec, fun _ henc hdec => decode_eq_illegalCommand henc hdec⟩

end Sys2Proof.Machine
end

section
/-! PROOFS. The lookups by the ranges of their arguments, and their laws (spec/40_alphabet_lookup.md R70 to R73). -/

namespace Sys2Proof.Machine

theorem alpha_toNat_of_upper {s : Sextet} (h : s.toNat ≤ 25) : (alpha s).toNat = 0x41 + s.toNat := by
  rw [alpha, if_pos h, BitVec.toNat_ofNat]
  omega

theorem alpha_toNat_of_lower {s : Sextet} (hlo : 26 ≤ s.toNat) (hhi : s.toNat ≤ 51) :
    (alpha s).toNat = 0x61 + (s.toNat - 26) := by
  rw [alpha, if_neg (by omega), if_pos hhi, BitVec.toNat_ofNat]
  omega

theorem alpha_toNat_of_digit {s : Sextet} (hlo : 52 ≤ s.toNat) (hhi : s.toNat ≤ 61) :
    (alpha s).toNat = 0x30 + (s.toNat - 52) := by
  rw [alpha, if_neg (by omega), if_neg (by omega), if_pos hhi, BitVec.toNat_ofNat]
  omega

theorem alpha_of_toNat_eq_62 {s : Sextet} (h : s.toNat = 62) : alpha s = 0x2B#8 := by
  rw [alpha, if_neg (by omega), if_neg (by omega), if_neg (by omega), if_pos h]

theorem alpha_of_toNat_eq_63 {s : Sextet} (h : s.toNat = 63) : alpha s = 0x2F#8 := by
  rw [alpha, if_neg (by omega), if_neg (by omega), if_neg (by omega), if_neg (by omega)]

/-- Settles O23: one equation per range of sextets. -/
theorem alphaFollowsItsRanges : Obligations.AlphaFollowsItsRanges := fun _ =>
  ⟨alpha_toNat_of_upper, alpha_toNat_of_lower, alpha_toNat_of_digit, alpha_of_toNat_eq_62, alpha_of_toNat_eq_63⟩

theorem inv_of_upper {c : Byte} (hlo : 0x41 ≤ c.toNat) (hhi : c.toNat ≤ 0x5A) :
    ∃ s, inv c = some s ∧ s.toNat = c.toNat - 0x41 :=
  ⟨_, by rw [inv, if_pos ⟨hlo, hhi⟩], by rw [BitVec.toNat_ofNat]; omega⟩

theorem inv_of_lower {c : Byte} (hlo : 0x61 ≤ c.toNat) (hhi : c.toNat ≤ 0x7A) :
    ∃ s, inv c = some s ∧ s.toNat = c.toNat - 0x61 + 26 :=
  ⟨_, by rw [inv, if_neg (by omega), if_pos ⟨hlo, hhi⟩], by rw [BitVec.toNat_ofNat]; omega⟩

theorem inv_of_digit {c : Byte} (hlo : 0x30 ≤ c.toNat) (hhi : c.toNat ≤ 0x39) :
    ∃ s, inv c = some s ∧ s.toNat = c.toNat - 0x30 + 52 :=
  ⟨_, by rw [inv, if_neg (by omega), if_neg (by omega), if_pos ⟨hlo, hhi⟩], by rw [BitVec.toNat_ofNat]; omega⟩

theorem inv_plus : inv 0x2B#8 = some 62#6 := by decide

theorem inv_slash : inv 0x2F#8 = some 63#6 := by decide

/-- A code outside the five ranges is invalid (spec/40_alphabet_lookup.md R71). -/
theorem inv_eq_none {c : Byte} (hupper : ¬ (0x41 ≤ c.toNat ∧ c.toNat ≤ 0x5A))
    (hlower : ¬ (0x61 ≤ c.toNat ∧ c.toNat ≤ 0x7A)) (hdigit : ¬ (0x30 ≤ c.toNat ∧ c.toNat ≤ 0x39))
    (hplus : c ≠ 0x2B#8) (hslash : c ≠ 0x2F#8) : inv c = none := by
  have hplusNat : c.toNat ≠ 0x2B := fun h => hplus (BitVec.eq_of_toNat_eq h)
  have hslashNat : c.toNat ≠ 0x2F := fun h => hslash (BitVec.eq_of_toNat_eq h)
  rw [inv, if_neg hupper, if_neg hlower, if_neg hdigit, if_neg hplusNat, if_neg hslashNat]

/-- The valid codes are the 64 characters of the alphabet (spec/40_alphabet_lookup.md R71). -/
theorem length_valid_codes :
    ((List.range 256).filter fun n => (inv (BitVec.ofNat 8 n)).isSome).length = 64 := by decide

/-- Settles O24: one equation per range of codes; the pad character lies outside them all; the valid codes are
counted over all 256. -/
theorem invFollowsItsRanges : Obligations.InvFollowsItsRanges := by
  refine ⟨fun c => ⟨inv_of_upper, inv_of_lower, inv_of_digit, ?plus, ?slash, inv_eq_none⟩, inv_padChar,
    length_valid_codes⟩
  case plus => rintro rfl; exact inv_plus
  case slash => rintro rfl; exact inv_slash

/-- Settles O25: the pad test compares with the one pad character. -/
theorem padIsOneCharacter : Obligations.PadIsOneCharacter := isPad_iff

/-- Settles O26: distinctness and the pad's exclusion follow from `INV` undoing `ALPHA`; the converse, that a valid
code is the character of its value, goes over all codes. -/
theorem lookupsObeyTheirLaws : Obligations.LookupsObeyTheirLaws :=
  ⟨fun _ _ => alpha_injective, inv_alpha, inv_eq_some_iff, alpha_ne_padChar⟩

end Sys2Proof.Machine
end

section
/-! PROOFS. The group integer: its octets as numbers (spec/30_encoding.md R56, spec/41_encoder.md R82), its sextets in
terms of its octets (spec/30_encoding.md R57) and its four characters (spec/41_encoder.md R83). -/

namespace Sys2Proof.Machine

/-- A group integer is the number its three octets spell, most significant first (spec/30_encoding.md R56). -/
theorem toNat_eq_split3 (w : Group) :
    w.toNat = (split3 w).1.toNat * 2 ^ 16 + (split3 w).2.1.toNat * 2 ^ 8 + (split3 w).2.2.toNat := by
  simp only [split3, BitVec.extractLsb'_toNat, Nat.shiftRight_eq_div_pow]
  omega

theorem pack3_toNat (b1 b2 b3 : Byte) :
    (pack3 b1 b2 b3).toNat = b1.toNat * 2 ^ 16 + b2.toNat * 2 ^ 8 + b3.toNat := by
  simpa only [split3_pack3] using toNat_eq_split3 (pack3 b1 b2 b3)

@[simp] theorem pack3_split3 (w : Group) : pack3 (split3 w).1 (split3 w).2.1 (split3 w).2.2 = w :=
  BitVec.eq_of_toNat_eq (by rw [pack3_toNat, ← toNat_eq_split3])

/-- Settles O27: a group integer is the number its octets spell, and taking the octets out undoes packing; so packing
undoes taking them out, the two groups being the same number. -/
theorem octetSideOfGroup : Obligations.OctetSideOfGroup :=
  ⟨fun b1 b2 b3 => ⟨pack3_toNat b1 b2 b3, split3_pack3 b1 b2 b3⟩, pack3_split3⟩

/-- The sextets of a packed group as bit fields of its octets (spec/30_encoding.md R56, R57). -/
theorem sextets_pack3 (b1 b2 b3 : Byte) : sextets (pack3 b1 b2 b3) =
    (b1.extractLsb' 2 6, b1.extractLsb' 0 2 ++ b2.extractLsb' 4 4, b2.extractLsb' 0 4 ++ b3.extractLsb' 6 2,
      b3.extractLsb' 0 6) := by
  simp only [sextets, Prod.mk.injEq]
  refine ⟨?_, ?_, ?_, ?_⟩ <;> refine BitVec.eq_of_getLsbD_eq fun i hi => ?_ <;>
    simp only [BitVec.getLsbD_append, BitVec.getLsbD_extractLsb', pack3_bit, hi]
  · simp [show ¬ 18 + i < 8 by omega, show ¬ 18 + i < 16 by omega, show 18 + i - 16 = 2 + i by omega]
  · by_cases h : i < 4
    · simp [h, show ¬ 12 + i < 8 by omega, show 12 + i < 16 by omega, show 12 + i - 8 = 4 + i by omega]
    · simp [h, show ¬ 12 + i < 8 by omega, show ¬ 12 + i < 16 by omega, show 12 + i - 16 = i - 4 by omega,
        show i - 4 < 2 by omega]
  · by_cases h : i < 2
    · simp [h, show 6 + i < 8 by omega]
    · simp [h, show ¬ 6 + i < 8 by omega, show 6 + i < 16 by omega, show 6 + i - 8 = i - 2 by omega,
        show i - 2 < 4 by omega]
  · simp [show i < 8 by omega]

/-- A sextet field of a group by arithmetic (spec/30_encoding.md R57). -/
theorem sextetField_eq_ofNat (w : Group) (lsb : Nat) :
    w.extractLsb' lsb 6 = BitVec.ofNat 6 (w.toNat / 2 ^ lsb % 2 ^ 6) :=
  BitVec.eq_of_toNat_eq (by
    rw [BitVec.extractLsb'_toNat, BitVec.toNat_ofNat, Nat.mod_mod, Nat.shiftRight_eq_div_pow])

/-- Settles O29: each sextet of the group is its field by arithmetic, the last one with nothing to divide away. -/
theorem charactersOfGroup : Obligations.CharactersOfGroup := by
  intro w
  simp only [split4, sextets, sextetField_eq_ofNat, Nat.pow_zero, Nat.div_one]

end Sys2Proof.Machine
end

section
/-! PROOFS. The encoder's lengths, its groups with zero fill and its pad (spec/41_encoder.md R80, R81, R84). -/

namespace Sys2Proof.Machine

/-- `ENCLEN` by rounding up: the octets missing from the last group are counted as if present. -/
theorem three_mul_encLen (n : Nat) : 3 * encLen n = 4 * (n + (3 - n % 3) % 3) := by
  unfold encLen
  omega

theorem encLen_mod_four (n : Nat) : encLen n % 4 = 0 := Nat.mul_mod_right 4 _

/-- Settles O30: the length is 4 times a quotient, which rounds up, and the widths are `encLen_fits`. -/
theorem encoderOutputLength : Obligations.EncoderOutputLength := fun n =>
  ⟨rfl, three_mul_encLen n, encLen_mod_four n, fun _ => encLen_fits⟩

theorem encFetch_fst (s : State) (g : Nat) : (encFetch s g).1 = s.readIbuf (3 * g) := rfl

theorem encFetch_snd_inside {s : State} {g : Nat} (h : 3 * g + 1 < s.ilen) :
    (encFetch s g).2.1 = s.readIbuf (3 * g + 1) := if_pos h

theorem encFetch_snd_beyond {s : State} {g : Nat} (h : s.ilen ≤ 3 * g + 1) : (encFetch s g).2.1 = 0x00#8 :=
  if_neg (by omega)

theorem encFetch_thd_inside {s : State} {g : Nat} (h : 3 * g + 2 < s.ilen) :
    (encFetch s g).2.2 = s.readIbuf (3 * g + 2) := if_pos h

theorem encFetch_thd_beyond {s : State} {g : Nat} (h : s.ilen ≤ 3 * g + 2) : (encFetch s g).2.2 = 0x00#8 :=
  if_neg (by omega)

/-- Settles O32: one equation per octet, inside the input and beyond it. -/
theorem encoderFetchZeroFills : Obligations.EncoderFetchZeroFills := fun s g _ =>
  ⟨encFetch_fst s g, encFetch_snd_inside, encFetch_snd_beyond, encFetch_thd_inside, encFetch_thd_beyond⟩

theorem encPad_of_mod_zero {n : Nat} (h : n % 3 = 0) : encPad n = 0 := if_pos h

theorem encPad_of_mod_one {n : Nat} (h : n % 3 = 1) : encPad n = 2 := by
  rw [encPad, if_neg (by omega), if_pos h]

theorem encPad_of_mod_two {n : Nat} (h : n % 3 = 2) : encPad n = 1 := by
  rw [encPad, if_neg (by omega), if_neg (by omega)]

/-- The pad count is the number of octets missing from the last group (spec/41_encoder.md R84). -/
theorem encPad_eq_missing (n : Nat) : encPad n = (3 - n % 3) % 3 := by
  rcases show n % 3 = 0 ∨ n % 3 = 1 ∨ n % 3 = 2 by omega with h | h | h
  · rw [encPad_of_mod_zero h, h]
  · rw [encPad_of_mod_one h, h]
  · rw [encPad_of_mod_two h, h]

/-- The characters of a group whose third octet is filled: the last comes of a zero sextet. -/
theorem split4_pack3_two_octets (b1 b2 : Byte) : split4 (pack3 b1 b2 0x00#8) =
    (alpha (b1.extractLsb' 2 6), alpha (b1.extractLsb' 0 2 ++ b2.extractLsb' 4 4),
      alpha (b2.extractLsb' 0 4 ++ 0#2), 0x41#8) := by
  rw [split4, sextets_pack3, ← alpha_zero]
  rfl

/-- The characters of a group whose second and third octets are filled: the last two come of zero sextets. -/
theorem split4_pack3_one_octet (b1 : Byte) : split4 (pack3 b1 0x00#8 0x00#8) =
    (alpha (b1.extractLsb' 2 6), alpha (b1.extractLsb' 0 2 ++ 0#4), 0x41#8, 0x41#8) := by
  rw [split4_pack3_two_octets, ← alpha_zero]
  rfl

/-- One octet in the last group: its other two are the fill (spec/41_encoder.md R81). -/
theorem encFetch_last_of_mod_one {s : State} (h : s.ilen % 3 = 1) :
    encFetch s (s.ilen / 3) = (s.readIbuf (3 * (s.ilen / 3)), 0x00#8, 0x00#8) :=
  Prod.ext rfl (Prod.ext (encFetch_snd_beyond (by omega)) (encFetch_thd_beyond (by omega)))

/-- Two octets in the last group: its third is the fill (spec/41_encoder.md R81). -/
theorem encFetch_last_of_mod_two {s : State} (h : s.ilen % 3 = 2) :
    encFetch s (s.ilen / 3) = (s.readIbuf (3 * (s.ilen / 3)), s.readIbuf (3 * (s.ilen / 3) + 1), 0x00#8) :=
  Prod.ext rfl (Prod.ext (encFetch_snd_inside (by omega)) (encFetch_thd_beyond (by omega)))

end Sys2Proof.Machine
end

section
/-! PROOFS. The command `ENC` (spec/41_encoder.md R84, R85, R87, R88), from what it leaves at each index of `OBUF`. -/

namespace Sys2Proof.Machine

theorem exec_enc_of_room {s : State} (h : encLen s.ilen ≤ s.config.obufSize) :
    exec .enc s = .next ((encBody s).succeed (encLen s.ilen)) := by
  rcases execEnc_cases s with ⟨hno, _⟩ | ⟨_, he⟩
  · omega
  · exact he

theorem exec_enc_of_no_room {s : State} (h : s.config.obufSize < encLen s.ilen) :
    exec .enc s = .next (s.raise .allocationFailure) := by
  rcases execEnc_cases s with ⟨_, he⟩ | ⟨hroom, _⟩
  · exact he
  · omega

/-- A command that failed has not succeeded: the code of its failure stands in `ERR` (spec/60_exceptions.md R137). -/
theorem not_succeeded_raise (s : State) (f : Failure) : ¬ (s.raise f).succeeded := fun h =>
  code_ne_zero f ((errField_failure f).symm.trans (congrArg errField h))

/-- An `ENC` that succeeded has written its output. -/
theorem eq_encBody_of_succeeded {s t : State} (h : exec .enc s = .next t) (ht : t.succeeded) :
    t = (encBody s).succeed (encLen s.ilen) := by
  rcases Nat.lt_or_ge s.config.obufSize (encLen s.ilen) with hno | hroom
  · rw [exec_enc_of_no_room hno] at h
    cases h
    exact absurd ht (not_succeeded_raise s _)
  · rw [exec_enc_of_room hroom] at h
    cases h
    rfl

/-- Character `k` of group `g`, below the pad (spec/41_encoder.md R85). -/
theorem encBody_readObuf_char {s : State} {g k : Nat} (hk : k < 4)
    (h : 4 * g + k < encLen s.ilen - encPad s.ilen) :
    (encBody s).readObuf (4 * g + k) = pick4 (encChars s g) k := by
  rw [encBody_readObuf, if_pos h, show (4 * g + k) / 4 = g by omega, show (4 * g + k) % 4 = k by omega]

theorem encBody_readObuf_pad {s : State} {i : Nat} (hlo : encLen s.ilen - encPad s.ilen ≤ i)
    (hhi : i < encLen s.ilen) : (encBody s).readObuf i = padChar := by
  rw [encBody_readObuf, if_neg (by omega), if_pos hhi]

theorem encBody_readObuf_beyond {s : State} {i : Nat} (h : encLen s.ilen ≤ i) :
    (encBody s).readObuf i = s.readObuf i := by
  rw [encBody_readObuf, if_neg (by omega), if_neg (by omega)]

/-- A command's end differs from its beginning in `OBUF`, `OLEN` and `STATUS` only (spec/20_memory.md R43). -/
theorem sameButResult_of_exec {i : Instr} {s t : State} (h : exec i s = .next t) : sameButResult s t := by
  obtain ⟨u, hu, hend⟩ := exec_ends i s
  rw [hu] at h
  cases h
  exact hend.frame

/-- Settles O31: the last group is filled with zero octets, so its last sextets are 0, whose character is `A`; the
pad writes come after the groups' writes. -/
theorem encoderPadReplacesZeroSextets : Obligations.EncoderPadReplacesZeroSextets := by
  refine ⟨fun n => ⟨encPad_of_mod_zero, encPad_of_mod_one, encPad_of_mod_two, encPad_eq_missing n⟩,
    fun s b1 b2 b3 c1 c2 c3 c4 hfetch hchars => ⟨fun hone => ?one, fun htwo => ?two⟩,
    fun s t h ht i hlo hhi => ?pad⟩
  case one =>
    rw [encFetch_last_of_mod_one hone] at hfetch
    cases hfetch
    rw [split4_pack3_one_octet] at hchars
    cases hchars
    exact ⟨rfl, rfl, rfl⟩
  case two =>
    rw [encFetch_last_of_mod_two htwo] at hfetch
    cases hfetch
    rw [split4_pack3_two_octets] at hchars
    cases hchars
    exact ⟨rfl, rfl⟩
  case pad =>
    rw [eq_encBody_of_succeeded h ht, readObuf_succeed]
    exact encBody_readObuf_pad hlo hhi

/-- Settles O33: the length check decides between the two ends; with room, `OBUF` is read index by index. -/
theorem encEncodesInputBuffer : Obligations.EncEncodesInputBuffer := by
  refine fun s => ⟨fun hroom => ?_, exec_enc_of_no_room⟩
  have hexec := exec_enc_of_room hroom
  refine ⟨_, hexec, sameButResult_of_exec hexec, rfl, rfl, fun g b1 b2 b3 c1 c2 c3 c4 _ hfetch hchars => ?chars,
    fun _ => encBody_readObuf_pad, fun _ => encBody_readObuf_beyond⟩
  case chars =>
    have hg : encChars s g = (c1, c2, c3, c4) := by rw [encChars, hfetch]; exact hchars
    have hchar : ∀ k < 4, 4 * g + k < encLen s.ilen - encPad s.ilen →
        (encBody s).readObuf (4 * g + k) = pick4 (c1, c2, c3, c4) k :=
      fun k hk h => hg ▸ encBody_readObuf_char hk h
    exact ⟨hchar 0 (by decide), hchar 1 (by decide), hchar 2 (by decide), hchar 3 (by decide)⟩

/-- With no input there are no groups and no pad (spec/41_encoder.md R87). -/
theorem encBody_of_empty {s : State} (h : s.ilen = 0) : encBody s = s := by
  rw [encBody, h]
  rfl

/-- Settles O35: the length 0 fits every `OBUF_SIZE`, and nothing is written. -/
theorem encEmptyInput : Obligations.EncEmptyInput := by
  intro s h
  have hlen : encLen s.ilen = 0 := by rw [h]; rfl
  rw [exec_enc_of_room (by omega), encBody_of_empty h, hlen]
  rfl

/-- A group inside the input is fetched from the input alone (spec/41_encoder.md R81). -/
theorem encFetch_of_sameInput {s t : State} (h : sameInput s t) {g : Nat} (hg : 3 * g < s.ilen) :
    encFetch s g = encFetch t g := by
  obtain ⟨hlen, _, hoctets⟩ := h
  simp only [encFetch, ← hlen, hoctets _ hg]
  congr 2
  · exact if_ctx_congr Iff.rfl (hoctets _) fun _ => rfl
  · exact if_ctx_congr Iff.rfl (hoctets _) fun _ => rfl

theorem encChars_of_sameInput {s t : State} (h : sameInput s t) {g : Nat} (hg : 3 * g < s.ilen) :
    encChars s g = encChars t g := by
  rw [encChars, encFetch_of_sameInput h hg, encChars]

/-- The output octets come of the input alone (spec/41_encoder.md R88). -/
theorem encBody_readObuf_of_sameInput {s t : State} (h : sameInput s t) {i : Nat} (hi : i < encLen s.ilen) :
    (encBody s).readObuf i = (encBody t).readObuf i := by
  have ⟨hlen, _, _⟩ := h
  have hg : 3 * (i / 4) < s.ilen := by unfold encLen at hi; omega
  rw [encBody_readObuf, encBody_readObuf, ← hlen, encChars_of_sameInput h hg, if_pos hi, if_pos hi]

/-- Settles O36: the length check looks at `ILEN` and `OBUF_SIZE`, and every octet written comes of the input. -/
theorem encDependsOnInputOnly : Obligations.EncDependsOnInputOnly := by
  intro s t h
  have ⟨hlen, hsize, _⟩ := h
  rcases Nat.lt_or_ge s.config.obufSize (encLen s.ilen) with hno | hroom
  · exact ⟨_, _, exec_enc_of_no_room hno, exec_enc_of_no_room (by rwa [← hlen, ← hsize]),
      rfl, rfl, fun _ hi => absurd hi (Nat.not_lt_zero _)⟩
  · exact ⟨_, _, exec_enc_of_room hroom, exec_enc_of_room (by rwa [← hlen, ← hsize]),
      rfl, congrArg encLen hlen, fun _ => encBody_readObuf_of_sameInput h⟩

end Sys2Proof.Machine
end

section
/-! PROOFS. The decoder's pad count, output length, sextets and character check (spec/42_decoder.md R95 to R97, R101). -/

namespace Sys2Proof.Machine

theorem padCnt_of_last_ne {s : State} (hlast : s.readIbuf (s.ilen - 1) ≠ padChar) : padCnt s = 0 := by
  rw [padCnt, if_pos (mt (isPad_iff _).1 hlast), ite_self]

theorem padCnt_of_last_only {s : State} (hne : s.ilen ≠ 0) (hlast : s.readIbuf (s.ilen - 1) = padChar)
    (hprev : s.readIbuf (s.ilen - 2) ≠ padChar) : padCnt s = 1 := by
  rw [padCnt, if_neg hne, if_neg (not_not_intro ((isPad_iff _).2 hlast)), if_pos (mt (isPad_iff _).1 hprev)]

theorem padCnt_of_last_two {s : State} (hne : s.ilen ≠ 0) (hlast : s.readIbuf (s.ilen - 1) = padChar)
    (hprev : s.readIbuf (s.ilen - 2) = padChar) : padCnt s = 2 := by
  rw [padCnt, if_neg hne, if_neg (not_not_intro ((isPad_iff _).2 hlast)),
    if_neg (not_not_intro ((isPad_iff _).2 hprev))]

/-- Settles O37: one equation per case of the last two characters; that the length is a multiple of 4 is not needed. -/
theorem padCountLooksAtLastTwo : Obligations.PadCountLooksAtLastTwo := fun _ =>
  ⟨padCnt_zero, fun hne _ => ⟨padCnt_of_last_ne, padCnt_of_last_only hne, padCnt_of_last_two hne⟩⟩

/-- The subtraction of `DECLEN` loses nothing: only an input of at least 4 characters has a pad
(spec/42_decoder.md R96). -/
theorem decLen_add_padCnt {s : State} (hlen : s.ilen % 4 = 0) :
    decLen s.ilen (padCnt s) + padCnt s = 3 * (s.ilen / 4) := by
  have hpad : padCnt s ≤ 3 * (s.ilen / 4) := by
    rcases Nat.eq_zero_or_pos s.ilen with hzero | hpos
    · rw [padCnt_zero hzero]
      exact Nat.zero_le _
    · have := padCnt_le s
      omega
  exact Nat.sub_add_cancel hpad

theorem decLen_le_of_width {w n : Nat} (p : Nat) (hw : 3 ≤ w) (hn : n < 2 ^ w) : decLen n p ≤ 3 * 2 ^ (w - 2) := by
  have hpow : 2 ^ w = 2 ^ (w - 2) * 4 := by rw [show (4 : Nat) = 2 ^ 2 from rfl, ← Nat.pow_add]; congr 1; omega
  have := decLen_le n p
  omega

/-- Settles O38: `decLen_add_padCnt`, the division being exact, and the bound of a length of `LEN_W` bits. -/
theorem decoderOutputLength : Obligations.DecoderOutputLength := by
  intro s hlen
  have hsum := decLen_add_padCnt hlen
  exact ⟨by omega, hsum, fun _ => decLen_le_of_width _⟩

theorem sextetAt_counted {s : State} {p i : Nat} (h : s.ilen - p ≤ i) : sextetAt s p i = some 0#6 := if_pos h

theorem sextetAt_character {s : State} {p i : Nat} (h : i < s.ilen - p) :
    sextetAt s p i = inv (s.readIbuf i) := if_neg (by omega)

/-- Every counted pad position holds the pad (spec/42_decoder.md R97). -/
theorem readIbuf_of_counted {s : State} {i : Nat} (hi : i < s.ilen) (h : s.ilen - padCnt s ≤ i) :
    s.readIbuf i = padChar := by
  by_cases hlast : s.readIbuf (s.ilen - 1) = padChar
  · by_cases hprev : s.readIbuf (s.ilen - 2) = padChar
    · rw [padCnt_of_last_two (by omega) hlast hprev] at h
      rcases show i = s.ilen - 1 ∨ i = s.ilen - 2 by omega with rfl | rfl
      · exact hlast
      · exact hprev
    · rw [padCnt_of_last_only (by omega) hlast hprev] at h
      rwa [show i = s.ilen - 1 by omega]
  · rw [padCnt_of_last_ne hlast] at h
    omega

/-- Settles O39: one equation per side of the first counted pad position; `INV` gives nothing for the pad. -/
theorem sextetOfPosition : Obligations.SextetOfPosition := by
  refine fun s i _ hi => ⟨fun h => ⟨sextetAt_counted h, readIbuf_of_counted hi h⟩, sextetAt_character, fun h hpad => ?_⟩
  rw [sextetAt_character h, hpad]
  exact inv_padChar

/-- A code is invalid exactly if it is no character of the alphabet (spec/40_alphabet_lookup.md R73). -/
theorem inv_eq_none_iff (c : Byte) : inv c = none ↔ ∀ v : Sextet, c ≠ alpha v := by
  rw [← Option.not_isSome_iff_eq_none, inv_isSome_iff, not_exists]

theorem charsValid_eq_false_iff (s : State) (p k : Nat) :
    charsValid s p k = false ↔ ∃ i, i < k ∧ sextetAt s p i = none := by
  simp only [← Bool.not_eq_true, charsValid_iff, not_forall, Option.not_isSome_iff_eq_none, exists_prop]

/-- The character check fails exactly on a character outside the alphabet at a position that is not a counted pad
position (spec/42_decoder.md R101). -/
theorem charsValid_eq_false_iff_character (s : State) (p : Nat) :
    charsValid s p s.ilen = false ↔ ∃ i, i < s.ilen - p ∧ ∀ v : Sextet, s.readIbuf i ≠ alpha v := by
  rw [charsValid_eq_false_iff]
  constructor
  · rintro ⟨i, _, hnone⟩
    rcases Nat.lt_or_ge i (s.ilen - p) with hlt | hge
    · exact ⟨i, hlt, (inv_eq_none_iff _).1 (sextetAt_character hlt ▸ hnone)⟩
    · exact nomatch (sextetAt_counted hge).symm.trans hnone
  · rintro ⟨i, hlt, hout⟩
    exact ⟨i, by omega, (sextetAt_character hlt).trans ((inv_eq_none_iff _).2 hout)⟩

end Sys2Proof.Machine
end

section
/-! PROOFS. The command `DEC` (spec/42_decoder.md R100 to R102, R104, R106), from its three checks and what it leaves
at each index of `OBUF`. -/

namespace Sys2Proof.Machine

theorem exec_dec_of_bad_length {s : State} (h : s.ilen % 4 ≠ 0) :
    exec .dec s = .next (s.raise .invalidLength) := by
  rw [exec, execDec, if_pos h]

theorem exec_dec_of_no_room {s : State} (hlen : s.ilen % 4 = 0)
    (h : s.config.obufSize < decLen s.ilen (padCnt s)) : exec .dec s = .next (s.raise .allocationFailure) := by
  rw [exec, execDec, if_neg (not_not_intro hlen), if_pos h]

theorem exec_dec_of_bad_character {s : State} (hlen : s.ilen % 4 = 0)
    (hroom : decLen s.ilen (padCnt s) ≤ s.config.obufSize) (h : charsValid s (padCnt s) s.ilen = false) :
    exec .dec s = .next (s.raise .invalidCharacter) := by
  rw [exec, execDec, if_neg (not_not_intro hlen), if_neg (Nat.not_lt.2 hroom), if_pos h]

theorem exec_dec_of_valid {s : State} (hlen : s.ilen % 4 = 0)
    (hroom : decLen s.ilen (padCnt s) ≤ s.config.obufSize) (h : charsValid s (padCnt s) s.ilen = true) :
    exec .dec s = .next ((decBody s).succeed (decLen s.ilen (padCnt s))) := by
  rw [exec, execDec, if_neg (not_not_intro hlen), if_neg (Nat.not_lt.2 hroom), if_neg (by simp [h])]

/-- Octet `k` of group `g`, below the computed length (spec/42_decoder.md R102). -/
theorem decBody_readObuf_octet {s : State} {g k : Nat} (hk : k < 3)
    (h : 3 * g + k < decLen s.ilen (padCnt s)) :
    (decBody s).readObuf (3 * g + k) = pick3 (split3 (decWord s (padCnt s) g)) k := by
  rw [decBody_readObuf, if_pos h, show (3 * g + k) / 3 = g by omega, show (3 * g + k) % 3 = k by omega]

theorem decBody_readObuf_beyond {s : State} {i : Nat} (h : decLen s.ilen (padCnt s) ≤ i) :
    (decBody s).readObuf i = s.readObuf i := by
  rw [decBody_readObuf, if_neg (Nat.not_lt.2 h)]

/-- Settles O40: one equation per check that fails; past them all, `OBUF` is read index by index. -/
theorem decDecodesInputBuffer : Obligations.DecDecodesInputBuffer := by
  refine fun s => ⟨exec_dec_of_bad_length, exec_dec_of_no_room,
    fun hlen hroom hbad => exec_dec_of_bad_character hlen hroom ((charsValid_eq_false_iff _ _ _).2 hbad),
    fun hlen hroom hgood => ?_⟩
  have hvalid : charsValid s (padCnt s) s.ilen = true :=
    (charsValid_iff _ _ _).2 fun i hi => Option.isSome_iff_ne_none.2 (hgood i hi)
  have hexec := exec_dec_of_valid hlen hroom hvalid
  refine ⟨_, hexec, sameButResult_of_exec hexec, rfl, rfl, fun g v1 v2 v3 v4 b1 b2 b3 _ h1 h2 h3 h4 hsplit => ?octets,
    fun _ => decBody_readObuf_beyond⟩
  case octets =>
    have hword : decWord s (padCnt s) g = pack4 v1 v2 v3 v4 := by
      simp only [decWord, sextetValue, h1, h2, h3, h4, Option.getD_some]
    have hoctet : ∀ k < 3, 3 * g + k < decLen s.ilen (padCnt s) →
        (decBody s).readObuf (3 * g + k) = pick3 (b1, b2, b3) k := by
      intro k hk h
      rw [decBody_readObuf_octet hk h, hword, hsplit]
    exact ⟨hoctet 0 (by decide), hoctet 1 (by decide), hoctet 2 (by decide)⟩

/-- With no input there are no groups (spec/42_decoder.md R104). -/
theorem decBody_of_empty {s : State} (h : s.ilen = 0) : decBody s = s := by
  rw [decBody, h]
  rfl

/-- Settles O46: the length 0 passes every check, its computed length being 0, and nothing is written. -/
theorem decEmptyInput : Obligations.DecEmptyInput := by
  intro s h
  have hlen : decLen s.ilen (padCnt s) = 0 := by rw [h, padCnt_zero h]; rfl
  have hvalid : charsValid s (padCnt s) s.ilen = true := by rw [h]; rfl
  rw [exec_dec_of_valid (by omega) (by omega) hvalid, decBody_of_empty h, hlen]
  rfl

/-- `ERR` after `DEC` says which check failed, the first that did (spec/60_exceptions.md R136). -/
theorem errField_of_exec_dec {s t : State} (h : exec .dec s = .next t) : errField t.status =
    if s.ilen % 4 ≠ 0 then 1 else if s.config.obufSize < decLen s.ilen (padCnt s) then 2
    else if charsValid s (padCnt s) s.ilen = false then 3 else 0 := by
  rcases execDec_cases s with ⟨hlen, he⟩ | ⟨hlen, hroom, he⟩ | ⟨hlen, hroom, hchars, he⟩ | ⟨hlen, hroom, hchars, he⟩ <;>
    cases h.symm.trans he
  · rw [if_pos hlen]
    exact errField_failure .invalidLength
  · rw [if_neg (not_not_intro hlen), if_pos hroom]
    exact errField_failure .allocationFailure
  · rw [if_neg (not_not_intro hlen), if_neg (Nat.not_lt.2 hroom), if_pos hchars]
    exact errField_failure .invalidCharacter
  · rw [if_neg (not_not_intro hlen), if_neg (Nat.not_lt.2 hroom), if_neg (by simp [hchars])]
    exact errField_success

/-- A command that ends with the code of a failure has raised that failure (spec/60_exceptions.md R137). -/
theorem eq_raise_of_errField {i : Instr} {s t : State} {f : Failure} (h : exec i s = .next t)
    (hcode : errField t.status = f.code) : t = s.raise f := by
  obtain ⟨u, hu, hend⟩ := exec_ends i s
  cases h.symm.trans hu
  rcases hend with ⟨f', rfl⟩ | ⟨u, m, _, _, _, _, _, rfl⟩
  · rw [raise_status, errField_failure] at hcode
    rw [code_injective hcode]
  · exact absurd (hcode.symm.trans errField_success) (code_ne_zero f)

/-- Settles O41: code 1 is the first check's alone, and that check reads `ILEN` only. -/
theorem decRejectsBadLengthExactly : Obligations.DecRejectsBadLengthExactly := by
  refine ⟨fun s => ⟨?length, fun hlen => ⟨_, exec_dec_of_bad_length hlen, errField_failure _⟩⟩,
    fun s m hlen => exec_dec_of_bad_length (s := { s with ibuf := m }) hlen, fun s t hzero h => ?zero⟩
  case length =>
    rintro ⟨t, h, hcode⟩ hlen
    rw [errField_of_exec_dec h, if_neg (not_not_intro hlen)] at hcode
    split_ifs at hcode <;> omega
  case zero =>
    cases h.symm.trans (decEmptyInput s hzero)
    exact errField_success

/-- Settles O42: past the other two checks code 3 says that the character check failed. -/
theorem decRejectsBadCharacterExactly : Obligations.DecRejectsBadCharacterExactly := by
  intro s hlen hroom
  rw [← charsValid_eq_false_iff_character]
  refine ⟨⟨?character, fun hbad => ⟨_, exec_dec_of_bad_character hlen hroom hbad, errField_failure _⟩⟩,
    fun t h hcode => eq_raise_of_errField (f := .invalidCharacter) h hcode⟩
  case character =>
    rintro ⟨t, h, hcode⟩
    rw [errField_of_exec_dec h, if_neg (not_not_intro hlen), if_neg (Nat.not_lt.2 hroom)] at hcode
    by_contra hgood
    rw [if_neg hgood] at hcode
    exact absurd hcode (by decide)

theorem padCnt_of_sameInput {s t : State} (h : sameInput s t) : padCnt s = padCnt t := by
  obtain ⟨hlen, _, hoctets⟩ := h
  rcases Nat.eq_zero_or_pos s.ilen with hzero | hpos
  · rw [padCnt_zero hzero, padCnt_zero (hlen ▸ hzero)]
  · rw [padCnt, padCnt, ← hlen, hoctets (s.ilen - 1) (by omega), hoctets (s.ilen - 2) (by omega)]

theorem sextetAt_of_sameInput {s t : State} (h : sameInput s t) (p : Nat) {i : Nat} (hi : i < s.ilen) :
    sextetAt s p i = sextetAt t p i := by
  obtain ⟨hlen, _, hoctets⟩ := h
  rw [sextetAt, sextetAt, ← hlen, hoctets i hi]

theorem charsValid_of_sameInput {s t : State} (h : sameInput s t) (p : Nat) :
    charsValid s p s.ilen = charsValid t p s.ilen := by
  rw [Bool.eq_iff_iff, charsValid_iff, charsValid_iff]
  exact forall₂_congr fun i hi => by rw [sextetAt_of_sameInput h p hi]

/-- A group inside the input is packed from the input alone (spec/42_decoder.md R106). -/
theorem decWord_of_sameInput {s t : State} (h : sameInput s t) (p : Nat) {g : Nat} (hg : 4 * g + 3 < s.ilen) :
    decWord s p g = decWord t p g := by
  have hsextet : ∀ i < s.ilen, sextetValue s p i = sextetValue t p i := fun i hi => by
    rw [sextetValue, sextetAt_of_sameInput h p hi, sextetValue]
  rw [decWord, hsextet _ (by omega), hsextet _ (by omega), hsextet _ (by omega), hsextet _ hg, decWord]

/-- The output octets come of the input alone (spec/42_decoder.md R106). -/
theorem decBody_readObuf_of_sameInput {s t : State} (h : sameInput s t) {i : Nat}
    (hi : i < decLen s.ilen (padCnt s)) : (decBody s).readObuf i = (decBody t).readObuf i := by
  have ⟨hlen, _, _⟩ := h
  have hgroups := decLen_le s.ilen (padCnt s)
  have hg : 4 * (i / 3) + 3 < s.ilen := by omega
  rw [decBody_readObuf, decBody_readObuf, ← hlen, ← padCnt_of_sameInput h, decWord_of_sameInput h _ hg, if_pos hi,
    if_pos hi]

/-- Two commands that raise the same failure give the host the same: the code and no octet
(spec/60_exceptions.md R137). -/
theorem sameResult_raise (s t : State) (f : Failure) : sameResult (s.raise f) (t.raise f) :=
  ⟨rfl, rfl, fun _ hi => absurd hi (Nat.not_lt_zero _)⟩

/-- Settles O47: the three checks look at the input and `OBUF_SIZE`, and every octet written comes of the input. -/
theorem decDependsOnInputOnly : Obligations.DecDependsOnInputOnly := by
  intro s t h
  have ⟨hilen, hsize, _⟩ := h
  have hpad := padCnt_of_sameInput h
  have hchars := charsValid_of_sameInput h (padCnt s)
  rcases execDec_cases s with ⟨hlen, he⟩ | ⟨hlen, hno, he⟩ | ⟨hlen, hroom, hbad, he⟩ | ⟨hlen, hroom, hgood, he⟩
  · exact ⟨_, _, he, exec_dec_of_bad_length (hilen ▸ hlen), sameResult_raise s t _⟩
  · exact ⟨_, _, he, exec_dec_of_no_room (hilen ▸ hlen) (by rwa [← hilen, ← hpad, ← hsize]), sameResult_raise s t _⟩
  · exact ⟨_, _, he, exec_dec_of_bad_character (hilen ▸ hlen) (by rwa [← hilen, ← hpad, ← hsize])
      (by rwa [← hilen, ← hpad, ← hchars]), sameResult_raise s t _⟩
  · exact ⟨_, _, he, exec_dec_of_valid (hilen ▸ hlen) (by rwa [← hilen, ← hpad, ← hsize])
      (by rwa [← hilen, ← hpad, ← hchars]), rfl, by rw [succeed_olen, succeed_olen, ← hilen, hpad],
      fun _ => decBody_readObuf_of_sameInput h⟩

end Sys2Proof.Machine
end

section
/-! PROOFS. The host's write of `CMD` and the macro `GetVersion` (spec/43_version_and_host.md R117, R123). -/

namespace Sys2Proof.Machine

/-- A `CMD` write of an octet is in range and hands the decoder that octet (spec/43_version_and_host.md R116, R117). -/
theorem issue_writeCmd (v : Byte) (s : State) : issue (.writeReg .cmd v.toNat) s = runCommand v s := by
  have hrange : (HostOp.writeReg .cmd v.toNat).wf s.config = true := decide_eq_true v.isLt
  rw [issue_of_wf hrange, perform, BitVec.ofNat_toNat, BitVec.setWidth_eq]

theorem runCommand_encode (i : Instr) (s : State) : runCommand (encode i) s = exec i s := by
  rw [runCommand, decode_encode]

theorem runCommand_of_illegal {v : Byte} (henc : v ≠ 0x01#8) (hdec : v ≠ 0x02#8) (s : State) :
    runCommand v s = .next (s.raise .illegalCommand) := by
  rw [runCommand, decode_eq_illegalCommand henc hdec]

/-- Failure entry and success entry both set `DONE` (spec/60_exceptions.md R137, R138). -/
theorem CommandEnd.done {s t : State} (h : CommandEnd s t) : doneField t.status = true := by
  rcases h with ⟨f, rfl⟩ | ⟨u, m, _, _, _, _, _, rfl⟩
  · exact doneField_failure f
  · exact doneField_success

/-- Settles O3: the write runs the decoder's command, whose three cases R51 gives, and each way a command can end sets
`DONE`. -/
theorem cmdWriteExecutesOneCommand : Obligations.CmdWriteExecutesOneCommand := by
  intro s v
  rw [issue_writeCmd]
  refine ⟨?enc, ?dec, fun henc hdec => runCommand_of_illegal henc hdec s, ?ends⟩
  case enc => rintro rfl; exact runCommand_encode .enc s
  case dec => rintro rfl; exact runCommand_encode .dec s
  case ends =>
    obtain ⟨t, hrun, hend⟩ := runCommand_ends v s
    exact ⟨t, hrun, hend.done⟩

theorem answer_frame (s : State) (r : Reply) : s.answer r = { s with replies := (s.answer r).replies } := rfl

/-- Settles O56: the macro is one read of `VERSION`, a register read is always in range, and the host's note of it is
all it changes. -/
theorem getVersionReturnsVersionId : Obligations.GetVersionReturnsVersionId := by
  intro s
  refine ⟨s.answer (.reg .version s.config.versionId.toNat), ?_, answer_frame s _⟩
  rw [getVersionMacro, issue_readReg, andThen_next, readReg_version]

end Sys2Proof.Machine
end

section
/-! PROOFS. The failures: what failure entry writes, and which words raise `AllocationFailure` and `IllegalCommand`
(spec/60_exceptions.md R132, R134, R137). -/

namespace Sys2Proof.Machine

/-- `STATUS = (ERR << 1) | 1` as a number (spec/30_encoding.md R58). -/
theorem toNat_status_failure (f : Failure) : f.status.toNat = 2 * f.code + 1 := by cases f <;> rfl

/-- The status a command leaves tells which of its two ends it had (spec/60_exceptions.md R137, R138). -/
theorem CommandEnd.success_or_raise {s t : State} (h : CommandEnd s t) :
    t.status = statusSuccess ∨ ∃ f : Failure, f.code = errField t.status ∧ t = s.raise f := by
  rcases h with ⟨f, rfl⟩ | ⟨u, m, _, _, _, _, _, rfl⟩
  · exact .inr ⟨f, (errField_failure f).symm, rfl⟩
  · exact .inl rfl

theorem CommandEnd.eq_raise_of_errField {s t : State} {f : Failure} (h : CommandEnd s t)
    (hcode : errField t.status = f.code) : t = s.raise f := by
  rcases h.success_or_raise with hsuccess | ⟨g, hg, rfl⟩
  · rw [hsuccess, errField_success] at hcode
    exact absurd hcode.symm (code_ne_zero f)
  · rw [code_injective (hg.trans hcode)]

theorem commandEnd_of_runCommand {v : Byte} {s t : State} (h : runCommand v s = .next t) : CommandEnd s t := by
  obtain ⟨u, hu, hend⟩ := runCommand_ends v s
  cases h.symm.trans hu
  exact hend

/-- Settles O48: the four codes give the four status values, and the end of a command is told by its status. -/
theorem failureEntryWrites : Obligations.FailureEntryWrites := by
  refine fun s => ⟨rfl, rfl, rfl, rfl, fun f => ⟨toNat_status_failure f, errField_failure f, doneField_failure f,
    reservedField_failure f⟩, fun t v h => ?ends⟩
  case ends =>
    refine (commandEnd_of_runCommand h).success_or_raise.imp_left fun hsuccess => ?_
    rw [hsuccess]
    exact ⟨errField_success, statusSuccess_eq⟩

/-- Every illegal word ends with code 4, so any other code is a command's (spec/60_exceptions.md R134). -/
theorem commandWord_of_errField_ne_four {v : Byte} {s t : State} (h : runCommand v s = .next t)
    (hcode : errField t.status ≠ 4) : v = 0x01#8 ∨ v = 0x02#8 := by
  by_contra hword
  obtain ⟨henc, hdec⟩ := not_or.1 hword
  cases h.symm.trans (runCommand_of_illegal henc hdec s)
  exact hcode (errField_failure .illegalCommand)

/-- Settles O43: code 2 is the length comparison's alone in each command, and no illegal word's; a command that ends
with it has raised `AllocationFailure` on the state it found. -/
theorem allocationFailsExactly : Obligations.AllocationFailsExactly := by
  refine fun s => ⟨⟨?enc, fun hno => ⟨_, exec_enc_of_no_room hno, errField_failure .allocationFailure⟩⟩,
    ⟨?dec, fun ⟨hlen, hno⟩ => ⟨_, exec_dec_of_no_room hlen hno, errField_failure .allocationFailure⟩⟩,
    fun v t h hcode => ⟨commandWord_of_errField_ne_four h (by omega),
      (commandEnd_of_runCommand h).eq_raise_of_errField (f := .allocationFailure) hcode⟩⟩
  case enc =>
    rintro ⟨t, h, hcode⟩
    by_contra hroom
    cases h.symm.trans (exec_enc_of_room (Nat.not_lt.1 hroom))
    exact absurd hcode (by decide : errField statusSuccess ≠ 2)
  case dec =>
    rintro ⟨t, h, hcode⟩
    rw [errField_of_exec_dec h] at hcode
    split_ifs at hcode <;> omega

/-- Settles O6: the word decodes to no command, and the failure reads neither `ILEN` nor `IBUF`. -/
theorem illegalWordFails : Obligations.IllegalWordFails := by
  intro s v henc hdec n m
  rw [issue_writeCmd, runCommand_of_illegal henc hdec]
  rfl

end Sys2Proof.Machine
end

section
/-! PROOFS. The invariant of a block (spec/10_state.md sections 10 and 11): the reset state meets it, a command keeps it
by the way it ends, every other operation by the range of its argument. -/

namespace Sys2Proof.Machine

/-- The state with another list of pending events and other answers: what is the host's (notes/assumptions/4.md,
notes/assumptions/5.md). -/
def State.withHost (s : State) (p : List Event) (l : List Reply) : State := { s with pending := p, replies := l }

/-- The invariant says nothing of what is pending or was answered. -/
theorem State.Inv.withHost {s : State} (h : s.Inv) (p : List Event) (l : List Reply) : (s.withHost p l).Inv :=
  { h with }

theorem State.Inv.raise {s : State} (h : s.Inv) (f : Failure) : (s.raise f).Inv :=
  { h with
    olenFits := Nat.two_pow_pos _
    olenInObuf := Nat.zero_le _
    statusLegal := legalStatus_failure f
    failedEmpty := fun _ => rfl
    freshEmpty := fun _ => rfl }

/-- A failure empties the output; a success leaves a length that fits, `OBUF` canonical and inside its size, and a
`STATUS` that is neither a failure's nor 0x00 (spec/60_exceptions.md R137, R138). -/
theorem CommandEnd.inv {s t : State} (hend : CommandEnd s t) (h : s.Inv) : t.Inv := by
  rcases hend with ⟨f, rfl⟩ | ⟨u, m, hu, hroom, hwidth, hwf, hwithin, rfl⟩
  · exact h.raise f
  · obtain ⟨o, rfl⟩ : ∃ o, u = { s with obuf := o } := ⟨u.obuf, hu⟩
    exact { h with
      olenFits := hwidth h.configOk h.ilenFits
      olenInObuf := hroom
      statusLegal := legalStatus_success
      failedEmpty := fun hfailed => absurd errField_success hfailed
      freshEmpty := fun hfresh => absurd hfresh (by decide : statusSuccess ≠ 0x00#8)
      obufWf := hwf h.obufWf
      obufWithin := hwithin h.obufWithin }

theorem State.Inv.writeIbuf {s : State} (h : s.Inv) {i : Nat} (hi : i < s.config.ibufSize) (v : Byte) :
    (s.writeIbuf i v).Inv :=
  { h with ibufWf := write_wf h.ibufWf i v, ibufWithin := write_within h.ibufWithin hi v }

/-- An operation in range keeps the invariant: `HostOp.wf` bounds the index of an `IBUF` write and the value of an
`ILEN` write (spec/43_version_and_host.md R116). -/
theorem perform_inv {op : HostOp} {s t : State} (h : s.Inv) (hrange : op.wf s.config = true)
    (hperform : perform op s = .next t) : t.Inv := by
  rcases perform_cases hperform with ⟨i, v, rfl, rfl⟩ | ⟨r, rfl⟩ | ⟨v, rfl, rfl⟩ | ⟨v, _, _, hend⟩ | rfl
  · exact h.writeIbuf (of_decide_eq_true hrange) v
  · exact h.withHost s.pending _
  · exact { h with ilenFits := of_decide_eq_true hrange }
  · exact hend.inv h
  · exact h

/-- After a reset the registers are 0 and no octet is written, so only the constraint on the parameters is needed. -/
theorem inv_of_reset_values {s : State} (hconfig : s.config.ok) (hstatus : s.status = 0x00#8) (hilen : s.ilen = 0)
    (holen : s.olen = 0) (hibuf : s.ibuf = []) (hobuf : s.obuf = []) : s.Inv where
  configOk := hconfig
  ilenFits := by rw [hilen]; exact Nat.two_pow_pos _
  olenFits := by rw [holen]; exact Nat.two_pow_pos _
  olenInObuf := by rw [holen]; exact Nat.zero_le _
  statusLegal := by rw [hstatus]; rfl
  failedEmpty := fun _ => holen
  freshEmpty := fun _ => holen
  ibufWf := by rw [hibuf]; exact List.Pairwise.nil
  ibufWithin := by rw [hibuf]; exact fun _ hc => nomatch hc
  obufWf := by rw [hobuf]; exact List.Pairwise.nil
  obufWithin := by rw [hobuf]; exact fun _ hc => nomatch hc

theorem State.Inv.platformReset {s : State} (h : s.Inv) : s.platformReset.Inv :=
  inv_of_reset_values h.configOk rfl rfl rfl rfl rfl

/-- Settles O21: by the three things a step can do, an idle step, a reset, or one operation in range. -/
theorem stepKeepsInvariant : Obligations.StepKeepsInvariant := by
  intro s t h hstep
  rcases step_cases hstep with ⟨_, rfl⟩ | ⟨rest, _, rfl⟩ | ⟨op, rest, _, hrange, hperform⟩
  · exact h
  · exact (h.withHost rest s.replies).platformReset
  · exact perform_inv (h.withHost rest s.replies) hrange hperform

/-- The least value of `LEN_W` holds of the block's free parameters (spec/00_scope.md R5). -/
theorem block_ok : Config.block.ok := Nat.le_add_left 3 _

/-- Settles O22: `State.reset` has the values of R22, whatever the free parameters. -/
theorem resetMeetsInvariant : Obligations.ResetMeetsInvariant :=
  inv_of_reset_values block_ok rfl rfl rfl rfl rfl

end Sys2Proof.Machine
end

section
/-! PROOFS. The group integer from its sextets (spec/30_encoding.md R57, spec/42_decoder.md R98). -/

namespace Sys2Proof.Machine

@[simp] theorem sextets_pack4 (s1 s2 s3 s4 : Sextet) : sextets (pack4 s1 s2 s3 s4) = (s1, s2, s3, s4) := by
  simp only [sextets, Prod.mk.injEq]
  refine ⟨?_, ?_, ?_, ?_⟩ <;> refine BitVec.eq_of_getLsbD_eq fun i hi => ?_ <;>
    simp only [BitVec.getLsbD_extractLsb', pack4_bit, hi]
  · simp [show ¬ 18 + i < 6 by omega, show ¬ 18 + i < 12 by omega]
  · simp [show ¬ 12 + i < 6 by omega, show 12 + i < 18 by omega]
  · simp [show 6 + i < 12 by omega]
  · simp [hi]

/-- A group integer is the number its four sextets spell, most significant first (spec/30_encoding.md R57). -/
theorem toNat_eq_sextets (w : Group) :
    w.toNat = (sextets w).1.toNat * 2 ^ 18 + (sextets w).2.1.toNat * 2 ^ 12 + (sextets w).2.2.1.toNat * 2 ^ 6 +
      (sextets w).2.2.2.toNat := by
  simp only [sextets, BitVec.extractLsb'_toNat, Nat.shiftRight_eq_div_pow]
  omega

theorem pack4_toNat (s1 s2 s3 s4 : Sextet) :
    (pack4 s1 s2 s3 s4).toNat = s1.toNat * 2 ^ 18 + s2.toNat * 2 ^ 12 + s3.toNat * 2 ^ 6 + s4.toNat := by
  simpa only [sextets_pack4] using toNat_eq_sextets (pack4 s1 s2 s3 s4)

/-- The octets of a packed group as bit fields of its sextets (spec/42_decoder.md R98). -/
theorem split3_pack4 (s1 s2 s3 s4 : Sextet) : split3 (pack4 s1 s2 s3 s4) =
    (s1 ++ s2.extractLsb' 4 2, s2.extractLsb' 0 4 ++ s3.extractLsb' 2 4, s3.extractLsb' 0 2 ++ s4) := by
  simp only [split3, Prod.mk.injEq]
  refine ⟨?_, ?_, ?_⟩ <;> refine BitVec.eq_of_getLsbD_eq fun i hi => ?_ <;>
    simp only [BitVec.getLsbD_append, BitVec.getLsbD_extractLsb', pack4_bit, hi]
  · by_cases h : i < 2
    · simp [h, show ¬ 16 + i < 6 by omega, show ¬ 16 + i < 12 by omega, show 16 + i < 18 by omega,
        show 16 + i - 12 = 4 + i by omega]
    · simp [h, show ¬ 16 + i < 6 by omega, show ¬ 16 + i < 12 by omega, show ¬ 16 + i < 18 by omega,
        show 16 + i - 18 = i - 2 by omega]
  · by_cases h : i < 4
    · simp [h, show ¬ 8 + i < 6 by omega, show 8 + i < 12 by omega, show 8 + i - 6 = 2 + i by omega]
    · simp [h, show ¬ 8 + i < 6 by omega, show ¬ 8 + i < 12 by omega, show 8 + i < 18 by omega,
        show 8 + i - 12 = i - 4 by omega, show i - 4 < 4 by omega]
  · by_cases h : i < 6
    · simp [h]
    · simp [h, show i < 12 by omega, show i - 6 < 2 by omega]

/-- Settles O28: packing and taking out undo each other, and the bits of one side are the named fields of the
other. -/
theorem sextetSideOfGroup : Obligations.SextetSideOfGroup :=
  ⟨fun s1 s2 s3 s4 => ⟨pack4_toNat s1 s2 s3 s4, sextets_pack4 s1 s2 s3 s4, split3_pack4 s1 s2 s3 s4⟩, pack4_sextets,
    sextets_pack3⟩

end Sys2Proof.Machine
end

section
/-! PROOFS. What every write of `CMD` leaves and does not look at: the fields of `STATUS` (spec/10_state.md R15, R21),
the old outcome (spec/60_exceptions.md section 4), and the same word written again (spec/70_reset_and_hazards.md
section 3). -/

namespace Sys2Proof.Machine

/-- A word runs its command, or is illegal and fails (spec/43_version_and_host.md R117, spec/60_exceptions.md R134). -/
theorem runCommand_cases (v : Byte) (s : State) :
    (∃ i, v = encode i ∧ runCommand v s = exec i s) ∨
    ((v ≠ 0x01#8 ∧ v ≠ 0x02#8) ∧ runCommand v s = .next (s.raise .illegalCommand)) := by
  by_cases henc : v = 0x01#8
  · exact .inl ⟨.enc, henc, henc ▸ runCommand_encode .enc s⟩
  · by_cases hdec : v = 0x02#8
    · exact .inl ⟨.dec, hdec, hdec ▸ runCommand_encode .dec s⟩
    · exact .inr ⟨⟨henc, hdec⟩, runCommand_of_illegal henc hdec s⟩

theorem CommandEnd.reserved {s t : State} (h : CommandEnd s t) : reservedField t.status = 0 := by
  rcases h with ⟨f, rfl⟩ | ⟨u, m, _, _, _, _, _, rfl⟩
  · exact reservedField_failure f
  · exact reservedField_success

theorem CommandEnd.errField_le {s t : State} (h : CommandEnd s t) : errField t.status ≤ 4 := by
  rcases h with ⟨f, rfl⟩ | ⟨u, m, _, _, _, _, _, rfl⟩
  · exact (errField_failure f).trans_le (code_le_four f)
  · exact errField_success.trans_le (Nat.zero_le 4)

/-- `DONE` tells a status that a command left from the one of a reset (spec/10_state.md R15). -/
theorem CommandEnd.status_ne_zero {s t : State} (h : CommandEnd s t) : t.status ≠ 0x00#8 := fun hzero =>
  absurd (hzero ▸ h.done) (by decide : doneField 0x00#8 ≠ true)

theorem CommandEnd.legal {s t : State} (h : CommandEnd s t) : legalStatus t.status = true := by
  rcases h with ⟨f, rfl⟩ | ⟨u, m, _, _, _, _, _, rfl⟩
  · exact legalStatus_failure f
  · exact legalStatus_success

theorem CommandEnd.olen_le {s t : State} (h : CommandEnd s t) : t.olen ≤ s.config.obufSize := by
  rcases h with ⟨f, rfl⟩ | ⟨u, m, _, hroom, _, _, _, rfl⟩
  · exact Nat.zero_le _
  · exact hroom

theorem CommandEnd.olen_of_failed {s t : State} (h : CommandEnd s t) (hfailed : errField t.status ≠ 0) :
    t.olen = 0 := by
  rcases h with ⟨f, rfl⟩ | ⟨u, m, _, _, _, _, _, rfl⟩
  · rfl
  · exact absurd errField_success hfailed

/-- No command ends with the code of `IllegalCommand` (spec/60_exceptions.md R134). -/
theorem errField_ne_four_of_exec {i : Instr} {s t : State} (h : exec i s = .next t) : errField t.status ≠ 4 := by
  cases i with
  | enc =>
    rcases execEnc_cases s with ⟨_, he⟩ | ⟨_, he⟩ <;> cases h.symm.trans he
    · exact (by decide : errField (Failure.status .allocationFailure) ≠ 4)
    · exact (by decide : errField statusSuccess ≠ 4)
  | dec =>
    rw [errField_of_exec_dec h]
    split_ifs <;> decide

/-- `ERR` is 4 after an illegal word and after no other (spec/10_state.md R15). -/
theorem errField_eq_four_iff {v : Byte} {s t : State} (h : runCommand v s = .next t) :
    errField t.status = 4 ↔ v ≠ 0x01#8 ∧ v ≠ 0x02#8 := by
  constructor
  · intro hcode
    rcases runCommand_cases v s with ⟨i, _, hrun⟩ | ⟨hword, _⟩
    · exact absurd hcode (errField_ne_four_of_exec (hrun.symm.trans h))
    · exact hword
  · rintro ⟨henc, hdec⟩
    by_contra hcode
    exact (commandWord_of_errField_ne_four h hcode).elim henc hdec

/-- Settles O49: each clause holds of both ways a command can end, and code 4 is the illegal words'. -/
theorem everyCommandWritesStatus : Obligations.EveryCommandWritesStatus := by
  intro s t v h
  have hend := commandEnd_of_runCommand h
  exact ⟨hend.done, hend.reserved, hend.errField_le, hend.status_ne_zero, hend.legal, hend.olen_le,
    hend.olen_of_failed, errField_eq_four_iff h⟩

/-- A command runs the same whatever the old outcome, the pending events and the answers, and keeps the last two. -/
theorem exec_withRest (i : Instr) (s : State) (st : BitVec 8) (n : Nat) (p : List Event) (l : List Reply) :
    exec i (s.withRest st n p l) = andThen (exec i s) fun t => .next (t.withHost p l) := by
  cases i with
  | enc =>
    rcases execEnc_cases s with ⟨hno, he⟩ | ⟨hroom, he⟩
    · rw [exec_enc_of_no_room (s := s.withRest st n p l) hno, exec, he]
      rfl
    · rw [exec_enc_of_room (s := s.withRest st n p l) hroom, encBody_withRest, exec, he]
      rfl
  | dec =>
    have hchars := charsValid_withRest s st n p l (padCnt s) s.ilen
    rcases execDec_cases s with ⟨hlen, he⟩ | ⟨hlen, hno, he⟩ | ⟨hlen, hroom, hbad, he⟩ | ⟨hlen, hroom, hgood, he⟩
    · rw [exec_dec_of_bad_length (s := s.withRest st n p l) hlen, exec, he]
      rfl
    · rw [exec_dec_of_no_room (s := s.withRest st n p l) hlen hno, exec, he]
      rfl
    · rw [exec_dec_of_bad_character (s := s.withRest st n p l) hlen hroom (hchars.trans hbad), exec, he]
      rfl
    · rw [exec_dec_of_valid (s := s.withRest st n p l) hlen hroom (hchars.trans hgood), decBody_withRest, exec, he]
      rfl

theorem runCommand_withRest (v : Byte) (s : State) (st : BitVec 8) (n : Nat) (p : List Event) (l : List Reply) :
    runCommand v (s.withRest st n p l) = andThen (runCommand v s) fun t => .next (t.withHost p l) := by
  rcases runCommand_cases v s with ⟨i, rfl, _⟩ | ⟨⟨henc, hdec⟩, _⟩
  · rw [runCommand_encode, runCommand_encode, exec_withRest]
  · rw [runCommand_of_illegal henc hdec, runCommand_of_illegal henc hdec]
    rfl

/-- Settles O50: a command that is given another old outcome differs in nothing, the pending events and the answers
being the same before it and left alone by it. -/
theorem oldOutcomePlaysNoPart : Obligations.OldOutcomePlaysNoPart := by
  intro s v st n
  obtain ⟨t, hrun, hend⟩ := runCommand_ends v s
  have hrest := runCommand_withRest v s st n s.pending s.replies
  rw [hrun, andThen_next] at hrest
  rw [hrun, hend.frame]
  rw [hend.frame] at hrest
  exact hrest

theorem runCommand_raise (v : Byte) (s : State) (f : Failure) : runCommand v (s.raise f) = runCommand v s :=
  oldOutcomePlaysNoPart s v f.status 0

theorem runCommand_succeed (v : Byte) (s : State) (m : Nat) : runCommand v (s.succeed m) = runCommand v s :=
  oldOutcomePlaysNoPart s v statusSuccess m

/-- Encoding again over its own output writes the same octets: the groups come of `IBUF`. -/
theorem encBody_encBody {s : State} (h : s.obuf.wf) : encBody (encBody s) = encBody s := by
  have honly := encBody_onlyObuf s
  refine state_eq_of_obuf (encBody_onlyObuf _) (encBody_wf h) (encBody_wf (encBody_wf h)) fun i => ?_
  rw [encBody_octetAt (encBody s), encBody_octetAt s, honly.ilen, encChars_onlyObuf honly]
  split_ifs <;> rfl

/-- Decoding again over its own output writes the same octets: the groups come of `IBUF`. -/
theorem decBody_decBody {s : State} (h : s.obuf.wf) : decBody (decBody s) = decBody s := by
  have honly := decBody_onlyObuf s
  refine state_eq_of_obuf (decBody_onlyObuf _) (decBody_wf h) (decBody_wf (decBody_wf h)) fun i => ?_
  rw [decBody_octetAt (decBody s), decBody_octetAt s, honly.ilen, padCnt_onlyObuf honly, decWord_onlyObuf honly]
  split_ifs <;> rfl

theorem charsValid_onlyObuf {s t : State} (h : OnlyObuf s t) (p k : Nat) : charsValid t p k = charsValid s p k := by
  rw [Bool.eq_iff_iff, charsValid_iff, charsValid_iff]
  exact forall₂_congr fun i _ => by rw [sextetAt_onlyObuf h]

theorem exec_enc_encBody {s : State} (hwf : s.obuf.wf) (hroom : encLen s.ilen ≤ s.config.obufSize) :
    exec .enc (encBody s) = exec .enc s := by
  have honly := encBody_onlyObuf s
  rw [exec_enc_of_room hroom, exec_enc_of_room (by rwa [honly.ilen, honly.config]), encBody_encBody hwf, honly.ilen]

theorem exec_dec_decBody {s : State} (hwf : s.obuf.wf) (hlen : s.ilen % 4 = 0)
    (hroom : decLen s.ilen (padCnt s) ≤ s.config.obufSize) (hgood : charsValid s (padCnt s) s.ilen = true) :
    exec .dec (decBody s) = exec .dec s := by
  have honly := decBody_onlyObuf s
  have hpad := padCnt_onlyObuf honly
  rw [exec_dec_of_valid hlen hroom hgood, exec_dec_of_valid (by rwa [honly.ilen])
    (by rwa [honly.ilen, hpad, honly.config]) (by rwa [honly.ilen, hpad, charsValid_onlyObuf honly]),
    decBody_decBody hwf, honly.ilen, hpad]

/-- Settles O51: a failure leaves only a new outcome, which no command looks at; a success leaves its output besides,
which the repeated command writes over with the same octets. -/
theorem repeatedCommandSameOutcome : Obligations.RepeatedCommandSameOutcome := by
  intro s t v hwf h
  have hfailed : ∀ f : Failure, t = s.raise f → runCommand v t = .next t := by
    rintro f rfl
    rw [runCommand_raise, h]
  rcases runCommand_cases v s with ⟨i, rfl, hrun⟩ | ⟨_, hrun⟩
  case inr => exact hfailed _ (Host.Outcome.next.inj (h.symm.trans hrun))
  rw [runCommand_encode] at h
  cases i with
  | enc =>
    rcases execEnc_cases s with ⟨_, he⟩ | ⟨hroom, he⟩
    · exact hfailed _ (Host.Outcome.next.inj (h.symm.trans he))
    · cases h.symm.trans he
      rw [runCommand_succeed, runCommand_encode, exec_enc_encBody hwf hroom, h]
  | dec =>
    rcases execDec_cases s with ⟨_, he⟩ | ⟨_, _, he⟩ | ⟨_, _, _, he⟩ | ⟨hlen, hroom, hgood, he⟩
    · exact hfailed _ (Host.Outcome.next.inj (h.symm.trans he))
    · exact hfailed _ (Host.Outcome.next.inj (h.symm.trans he))
    · exact hfailed _ (Host.Outcome.next.inj (h.symm.trans he))
    · cases h.symm.trans he
      rw [runCommand_succeed, runCommand_encode, exec_dec_decBody hwf hlen hroom hgood, h]

end Sys2Proof.Machine
end

section
/-! PROOFS. One step for each event that can be next: a command's word, the reads and writes of registers and buffers,
operations out of range, a reset, nothing (spec/43_version_and_host.md R116 to R119, spec/70_reset_and_hazards.md R150,
R151). -/

namespace Sys2Proof.Machine

/-- Settles O2: `encode` gives a word that `decode` reads as its command, and `decode` reads no other word so. -/
theorem decodeEncodeAgree : Obligations.DecodeEncodeAgree :=
  ⟨fun i _ => decode_encode i, fun _ _ => decode_command⟩

theorem step_idle {s : State} (h : s.pending = []) : step s = .next s := by
  rw [step, runNext, h, idle]

/-- Settles O7: with nothing pending a step is the idle step. -/
theorem idleBlockStandsStill : Obligations.IdleBlockStandsStill := fun _ => step_idle

/-- Settles O4: a step takes the event off and issues it; a `CMD` write runs what its word decodes to. -/
theorem stepRunsDecodedCommand : Obligations.StepRunsDecodedCommand := by
  refine ⟨fun s rest v i hp hdec _ => ?_, fun _ _ _ => step_host⟩
  rw [step_host hp, issue_writeCmd, decode_command hdec, runCommand_encode]

theorem tableWord_encode (i : Instr) : tableWord 8 (encode i).toNat = encode i := by cases i <;> rfl

/-- Settles O5: the placed word is the command's own, and taking the placed event off restores the state. -/
theorem placedWordRunsNext : Obligations.PlacedWordRunsNext := by
  intro s i
  rw [State.withFetchWord, tableWord_encode]
  exact stepRunsDecodedCommand.1 (s.withCommandNext (encode i)) s.pending (encode i) i rfl (decode_encode i)
    (by cases i <;> rfl)

theorem step_host_of_wf {s : State} {op : HostOp} {rest : List Event} (h : s.pending = .host op :: rest)
    (hrange : op.wf s.config = true) : step s = perform op { s with pending := rest } :=
  (step_host h).trans (issue_of_wf hrange)

/-- Settles O8: the index is in range, so the step is the buffer's write. -/
theorem ibufWriteStoresOneOctet : Obligations.IbufWriteStoresOneOctet := by
  intro s rest i v hp hi
  have hstep : step s = .next ({ s with pending := rest }.writeIbuf i v) := step_host_of_wf hp (decide_eq_true hi)
  exact ⟨_, hstep, rfl, fun j => readIbuf_writeIbuf _ i j v⟩

/-- Settles O9: the value for `ILEN` is in range; a write of a read-only register is in range with any value. -/
theorem registerWrites : Obligations.RegisterWrites := by
  refine fun s rest v => ⟨fun hp hv => step_host_of_wf hp (decide_eq_true hv), fun r hr hp => ?_⟩
  rcases hr with rfl | rfl | rfl
  · exact step_host_of_wf hp rfl
  · exact step_host_of_wf hp rfl
  · exact step_host_of_wf hp rfl

/-- Settles O10: a register read is always in range and notes what `State.readReg` gives. -/
theorem registerReadsAnswer : Obligations.RegisterReadsAnswer := by
  intro s rest r hp
  refine ⟨s.readReg r, (step_host hp).trans (issue_readReg r _), ?_⟩
  refine ⟨?_, ?_, ?_, ?_, ?_⟩ <;> rintro rfl <;> rfl

/-- Settles O11: the index is in range, so the step notes the octet there. -/
theorem bufferReadsAnswer : Obligations.BufferReadsAnswer := fun _ _ _ =>
  ⟨fun hp hi => step_host_of_wf hp (decide_eq_true hi), fun hp hi => step_host_of_wf hp (decide_eq_true hi)⟩

theorem issue_of_not_wf {op : HostOp} {s : State} (h : op.wf s.config = false) :
    issue op s = .refused op.refusal := by
  rw [issue, h]
  rfl

theorem step_refused {s : State} {op : HostOp} {rest : List Event} (h : s.pending = .host op :: rest)
    (hrange : op.wf s.config = false) : step s = .refused op.refusal :=
  (step_host h).trans (issue_of_not_wf hrange)

/-- Settles O12: each argument is at or above the bound that `HostOp.wf` sets for it. -/
theorem outOfRangeRefused : Obligations.OutOfRangeRefused := fun _ _ _ _ _ =>
  ⟨fun hp h => step_refused hp (decide_eq_false (Nat.not_lt.2 h)),
    fun hp h => step_refused hp (decide_eq_false (Nat.not_lt.2 h)),
    fun hp h => step_refused hp (decide_eq_false (Nat.not_lt.2 h)),
    fun hp h => step_refused hp (decide_eq_false (Nat.not_lt.2 h)),
    fun hp h => step_refused hp (decide_eq_false (Nat.not_lt.2 h))⟩

theorem readIbuf_of_unwritten {s : State} (h : s.ibuf = []) (i : Nat) :
    s.readIbuf i = Config.ibufAtReset s.contentKey s.resets i := by
  rw [State.readIbuf, h]
  rfl

theorem readObuf_of_unwritten {s : State} (h : s.obuf = []) (i : Nat) :
    s.readObuf i = Config.obufAtReset s.contentKey s.resets i := by
  rw [State.readObuf, h]
  rfl

/-- Settles O15: the registers by `State.reset`; no octet is written, so each reads as its free value. -/
theorem resetLeavesSpecifiedState : Obligations.ResetLeavesSpecifiedState :=
  ⟨rfl, rfl, rfl, rfl, rfl, block_ok, readIbuf_of_unwritten rfl, readObuf_of_unwritten rfl⟩

/-- Settles O16: the registers by `State.platformReset`; no octet is written after it, so each reads as the free value
of the new count of resets. -/
theorem platformResetFromAnyState : Obligations.PlatformResetFromAnyState := fun s rest hp =>
  ⟨{ s with pending := rest }.platformReset, step_reset hp, rfl, rfl, rfl, rfl, rfl, rfl, rfl, rfl,
    readIbuf_of_unwritten rfl, readObuf_of_unwritten rfl⟩

/-- Settles O13: the next event, if any, is a reset or an operation in range, and both complete; there is no fault to
stop with. -/
theorem stepCompletes : Obligations.StepCompletes := by
  refine ⟨fun s hrange => ?_, fun _ f => nomatch f⟩
  cases hp : s.pending with
  | nil => exact ⟨s, step_idle hp⟩
  | cons e rest =>
    cases e with
    | reset => exact ⟨_, step_reset hp⟩
    | host op =>
      rw [step_host_of_wf hp (hrange _ _ hp)]
      exact perform_completes op _

end Sys2Proof.Machine
end

section
/-! PROOFS. What can change `STATUS`, `ILEN`, an octet of `IBUF` and an octet of `OBUF` (spec/10_state.md R11 to R15,
spec/20_memory.md R37, spec/70_reset_and_hazards.md R150). -/

namespace Sys2Proof.Machine

/-- A step that changes anything and takes no reset performs one host operation. -/
theorem step_cases_of_no_reset {s t : State} (h : step s = .next t) (hreset : ∀ rest, s.pending ≠ .reset :: rest) :
    t = s ∨ ∃ op rest, s.pending = .host op :: rest ∧ op.wf s.config = true ∧
      perform op { s with pending := rest } = .next t := by
  rcases step_cases h with ⟨_, hsame⟩ | ⟨rest, hp, _⟩ | hhost
  · exact .inl hsame
  · exact absurd hp (hreset rest)
  · exact .inr hhost

/-- `STATUS` is written by commands alone, and none leaves it 0x00 (spec/10_state.md R15). -/
theorem status_of_perform {op : HostOp} {s t : State} (h : perform op s = .next t) :
    t.status = s.status ∨ t.status ≠ 0x00#8 := by
  rcases perform_cases h with ⟨i, v, _, rfl⟩ | ⟨r, rfl⟩ | ⟨v, _, rfl⟩ | ⟨v, _, _, hend⟩ | rfl
  · exact .inl rfl
  · exact .inl rfl
  · exact .inl rfl
  · exact .inr hend.status_ne_zero
  · exact .inl rfl

/-- Settles O17: an operation keeps `STATUS` or leaves it other than 0x00. -/
theorem onlyResetClearsStatus : Obligations.OnlyResetClearsStatus := by
  intro s t h hbefore hafter
  by_contra hreset
  rcases step_cases_of_no_reset h (not_exists.1 hreset) with rfl | ⟨op, rest, _, _, hperform⟩
  · exact hbefore hafter
  · rcases status_of_perform hperform with hsame | hne
    · exact hbefore (hsame.symm.trans hafter)
    · exact hne hafter

theorem CommandEnd.ilen {s t : State} (h : CommandEnd s t) : t.ilen = s.ilen := by rw [h.frame]

theorem CommandEnd.readIbuf {s t : State} (h : CommandEnd s t) (i : Nat) : t.readIbuf i = s.readIbuf i := by
  rw [h.frame]
  rfl

/-- `ILEN` is written by the host's write of it alone (spec/10_state.md R11). -/
theorem ilen_of_perform {op : HostOp} {s t : State} (h : perform op s = .next t) :
    t.ilen = s.ilen ∨ op = .writeReg .ilen t.ilen := by
  rcases perform_cases h with ⟨i, v, _, rfl⟩ | ⟨r, rfl⟩ | ⟨v, hop, rfl⟩ | ⟨v, _, _, hend⟩ | rfl
  · exact .inl rfl
  · exact .inl rfl
  · exact .inr hop
  · exact .inl hend.ilen
  · exact .inl rfl

/-- An octet of `IBUF` is written by the host's write at its index alone (spec/20_memory.md R37). -/
theorem readIbuf_of_perform {op : HostOp} {s t : State} (h : perform op s = .next t) (i : Nat) :
    t.readIbuf i = s.readIbuf i ∨ op = .writeIbuf i (t.readIbuf i) := by
  rcases perform_cases h with ⟨j, v, hop, rfl⟩ | ⟨r, rfl⟩ | ⟨v, _, rfl⟩ | ⟨v, _, _, hend⟩ | rfl
  · rw [readIbuf_writeIbuf]
    by_cases hi : i = j
    · rw [if_pos hi, hi]
      exact .inr hop
    · exact .inl (if_neg hi)
  · exact .inl rfl
  · exact .inl rfl
  · exact .inl (hend.readIbuf i)
  · exact .inl rfl

/-- Settles O18: the one operation that can change `ILEN`, or an octet of `IBUF`, is the host's write of it. -/
theorem inputChangesOnlyByHost : Obligations.InputChangesOnlyByHost := by
  intro s t h hreset
  rcases step_cases_of_no_reset h hreset with rfl | ⟨op, rest, hp, _, hperform⟩
  · exact ⟨fun hne => absurd rfl hne, fun _ hne => absurd rfl hne⟩
  · refine ⟨fun hne => ⟨rest, ?_⟩, fun i hne => ⟨rest, ?_⟩⟩
    · rw [hp, ← (ilen_of_perform hperform).resolve_left hne]
    · rw [hp, ← (readIbuf_of_perform hperform i).resolve_left hne]

/-- A command changes an octet of `OBUF` only if it succeeds, below the length it computed (spec/60_exceptions.md R137,
R138). -/
theorem readObuf_of_exec {c : Instr} {s t : State} (h : exec c s = .next t) (i : Nat) :
    t.readObuf i = s.readObuf i ∨ t.status = 0x01#8 ∧ i < t.olen := by
  cases c with
  | enc =>
    rcases execEnc_cases s with ⟨_, he⟩ | ⟨_, he⟩ <;> cases h.symm.trans he
    · exact .inl (readObuf_raise s _ i)
    · exact (Nat.lt_or_ge i (encLen s.ilen)).symm.imp encBody_readObuf_beyond fun hi => ⟨statusSuccess_eq, hi⟩
  | dec =>
    rcases execDec_cases s with ⟨_, he⟩ | ⟨_, _, he⟩ | ⟨_, _, _, he⟩ | ⟨_, _, _, he⟩ <;> cases h.symm.trans he
    · exact .inl (readObuf_raise s _ i)
    · exact .inl (readObuf_raise s _ i)
    · exact .inl (readObuf_raise s _ i)
    · exact (Nat.lt_or_ge i (decLen s.ilen (padCnt s))).symm.imp decBody_readObuf_beyond
        fun hi => ⟨statusSuccess_eq, hi⟩

/-- A `CMD` write in range has the number of its word (spec/43_version_and_host.md R116). -/
theorem toNat_of_cmd_wf {c : Config} {v : Nat} {w : Byte} (hrange : (HostOp.writeReg .cmd v).wf c = true)
    (hword : BitVec.ofNat 8 v = w) : v = w.toNat := by
  rw [← hword, BitVec.toNat_ofNat, Nat.mod_eq_of_lt (of_decide_eq_true hrange)]

/-- An octet of `OBUF` is written by a command that succeeds alone (spec/10_state.md R14, spec/20_memory.md R37). -/
theorem readObuf_of_perform {op : HostOp} {s t : State} (hrange : op.wf s.config = true)
    (h : perform op s = .next t) (i : Nat) :
    t.readObuf i = s.readObuf i ∨
      (t.status = 0x01#8 ∧ i < t.olen ∧ ∃ c, op = .writeReg .cmd (encode c).toNat) := by
  rcases perform_cases h with ⟨j, v, _, rfl⟩ | ⟨r, rfl⟩ | ⟨v, _, rfl⟩ | ⟨v, rfl, hrun, _⟩ | rfl
  · exact .inl rfl
  · exact .inl rfl
  · exact .inl rfl
  · rcases runCommand_cases (BitVec.ofNat 8 v) s with ⟨c, hword, hexec⟩ | ⟨_, hillegal⟩
    · refine (readObuf_of_exec (hexec.symm.trans hrun) i).imp_right fun ⟨hstatus, hi⟩ => ⟨hstatus, hi, c, ?_⟩
      rw [toNat_of_cmd_wf hrange hword]
    · cases hrun.symm.trans hillegal
      exact .inl (readObuf_raise s _ i)
  · exact .inl rfl

/-- Settles O19: the one operation that can change an octet of `OBUF` is a `CMD` write of a command that succeeds. -/
theorem outputChangesOnlyBySuccess : Obligations.OutputChangesOnlyBySuccess := by
  intro s t h hreset i hne
  rcases step_cases_of_no_reset h hreset with rfl | ⟨op, rest, hp, hrange, hperform⟩
  · exact absurd rfl hne
  · obtain ⟨hstatus, hi, c, rfl⟩ :=
      (readObuf_of_perform (s := { s with pending := rest }) hrange hperform i).resolve_left hne
    exact ⟨hstatus, hi, c, rest, hp⟩

end Sys2Proof.Machine
end

section
/-! PROOFS. Runs of steps: the operations loaded for an idle block (spec/20_memory.md R40), and the steps of several
blocks (spec/60_exceptions.md R146). -/

namespace Sys2Proof.Machine

theorem eq_next_of_andThen {α β : Type} {o : Host.Outcome α Fault Refusal} {f : α → Host.Outcome β Fault Refusal}
    {b : β} (h : andThen o f = .next b) : ∃ a, o = .next a ∧ f a = .next b := by
  cases o with
  | next a => exact ⟨a, rfl, h⟩
  | fault r => cases r
  | refused r => cases h

/-- No operation looks at what is pending, or changes it (spec/20_memory.md section 7). -/
theorem perform_withHost (op : HostOp) (s : State) (p : List Event) :
    perform op (s.withHost p s.replies) = andThen (perform op s) fun t => .next (t.withHost p t.replies) := by
  cases op with
  | writeIbuf i v => rfl
  | readIbuf i => rfl
  | readObuf i => rfl
  | readReg r => cases r <;> rfl
  | writeReg r v =>
    cases r with
    | version => rfl
    | status => rfl
    | olen => rfl
    | ilen => rfl
    | cmd =>
      obtain ⟨t, hrun, hend⟩ := runCommand_ends (BitVec.ofNat 8 v) s
      have hreplies : t.replies = s.replies := by rw [hend.frame]
      have hrest := runCommand_withRest (BitVec.ofNat 8 v) s s.status s.olen p s.replies
      rw [hrun, andThen_next, ← hreplies] at hrest
      rw [perform, perform, hrun, andThen_next, ← hreplies]
      exact hrest

theorem issue_withHost (op : HostOp) (s : State) (p : List Event) :
    issue op (s.withHost p s.replies) = andThen (issue op s) fun t => .next (t.withHost p t.replies) := by
  by_cases hrange : op.wf s.config = true
  · rw [issue_of_wf (s := s.withHost p s.replies) hrange, issue_of_wf hrange, perform_withHost]
  · rw [Bool.not_eq_true] at hrange
    rw [issue_of_not_wf (s := s.withHost p s.replies) hrange, issue_of_not_wf hrange]
    rfl

theorem pending_of_perform {op : HostOp} {s t : State} (h : perform op s = .next t) : t.pending = s.pending := by
  rcases perform_cases h with ⟨i, v, _, rfl⟩ | ⟨r, rfl⟩ | ⟨v, _, rfl⟩ | ⟨v, _, _, hend⟩ | rfl
  · rfl
  · rfl
  · rfl
  · rw [hend.frame]
  · rfl

/-- Settles O14, by induction on the operations: the first step issues the first of them, to which the others make no
difference, and leaves the others loaded for the state it led to, idle but for them. -/
theorem loadedOperationsRunInOrder : Obligations.LoadedOperationsRunInOrder := by
  intro ops
  induction ops with
  | nil =>
    intro s hidle
    rw [State.load, List.map_nil, List.append_nil]
    rfl
  | cons op ops ih =>
    intro s hidle
    have hload : ∀ t : State, t.pending = [] → t.withHost (ops.map .host) t.replies = t.load ops := by
      intro t ht
      rw [State.load, ht, List.nil_append, State.withHost]
    have hstep : step (s.load (op :: ops)) =
        andThen (issue op s) fun t => .next (t.withHost (ops.map .host) t.replies) := by
      rw [← issue_withHost]
      exact step_host (by rw [State.load, hidle]; rfl)
    rw [List.length_cons, stepTimes, hstep, issueAll]
    cases hissue : issue op s with
    | fault r => cases r
    | refused r => rfl
    | next t =>
      have ht : t.pending = [] := (pending_of_perform (issue_next hissue).2).trans hidle
      rw [andThen_next, andThen_next, andThen_next, hload t ht, ih t ht]

/-- A step of a platform is a step of one block that it has, and leaves the others as they were. -/
theorem stepAt_next {p q : Platform} {k : Nat} (h : p.stepAt k = .next q) :
    ∃ s t, p[k]? = some s ∧ step s = .next t ∧ q = p.set k t := by
  unfold Platform.stepAt at h
  split at h
  · next s hk =>
    obtain ⟨t, hstep, hset⟩ := eq_next_of_andThen h
    exact ⟨s, t, hk, hstep, (Host.Outcome.next.inj hset).symm⟩
  · cases h

/-- Settles O58, by induction on the interleaving: its first step is the block's own first step, or leaves the block as
it was. -/
theorem blocksRunAsIfAlone : Obligations.BlocksRunAsIfAlone := by
  intro ks
  induction ks with
  | nil =>
    intro p q h k s hk
    cases h
    exact ⟨s, hk, rfl⟩
  | cons j ks ih =>
    intro p q h k s hk
    obtain ⟨p', hstepAt, hrun⟩ := eq_next_of_andThen h
    obtain ⟨u, u', hj, hstep, rfl⟩ := stepAt_next hstepAt
    by_cases hjk : j = k
    · subst hjk
      obtain rfl : u = s := Option.some.inj (hj.symm.trans hk)
      obtain ⟨t, ht, htimes⟩ := ih _ q hrun j u' (by rw [List.getElem?_set_self', hk]; rfl)
      refine ⟨t, ht, ?_⟩
      rw [List.count_cons_self, stepTimes, hstep, andThen_next, htimes]
    · obtain ⟨t, ht, htimes⟩ := ih _ q hrun k s (by rw [List.getElem?_set_ne hjk, hk])
      refine ⟨t, ht, ?_⟩
      rw [List.count_cons_of_ne hjk, htimes]

end Sys2Proof.Machine
end

section
/-! PROOFS. Text lines, the bus form of an operation and the macros `Encode` and `Decode` (spec/20_memory.md R38,
spec/43_version_and_host.md R120 to R122). -/

namespace Sys2Proof.Machine

theorem ofOffset_offset (r : Reg) : Reg.ofOffset r.offset = some r := by cases r <;> rfl

theorem offset_of_ofOffset {o : Nat} {r : Reg} (h : Reg.ofOffset o = some r) : r.offset = o := by
  unfold Reg.ofOffset at h
  split_ifs at h with h0 h4 h8 hC h10 <;> cases h <;> exact Eq.symm ‹_›

theorem ofOffset_unimplemented {o : Nat} (h : 0x14 ≤ o) : Reg.ofOffset o = none := by
  rw [Reg.ofOffset, if_neg (by omega), if_neg (by omega), if_neg (by omega), if_neg (by omega), if_neg (by omega)]

theorem toOp_toBus (op : HostOp) : op.toBus.toOp = some op := by
  cases op with
  | writeReg r v => rw [HostOp.toBus, BusAccess.toOp, ofOffset_offset, Option.map_some]
  | readReg r => rw [HostOp.toBus, BusAccess.toOp, ofOffset_offset, Option.map_some]
  | writeIbuf i v => rfl
  | readIbuf i => rfl
  | readObuf i => rfl

theorem toBus_of_toOp {a : BusAccess} {op : HostOp} (h : a.toOp = some op) : op.toBus = a := by
  cases a with
  | regWrite o v =>
    obtain ⟨r, hr, rfl⟩ := Option.map_eq_some_iff.1 h
    rw [HostOp.toBus, offset_of_ofOffset hr]
  | regRead o =>
    obtain ⟨r, hr, rfl⟩ := Option.map_eq_some_iff.1 h
    rw [HostOp.toBus, offset_of_ofOffset hr]
  | ibufWrite i v => cases h; rfl
  | ibufRead i => cases h; rfl
  | obufRead i => cases h; rfl

theorem busAccess_of_no_op {a : BusAccess} (h : a.toOp = none) (s : State) :
    busAccess a s = .refused .unimplementedOffset := by
  rw [busAccess, h]

/-- Settles O57: offsets and registers determine each other, and no register is at 0x14 or above. -/
theorem busFormsAgree : Obligations.BusFormsAgree := by
  refine ⟨rfl, rfl, rfl, rfl, rfl, toOp_toBus, fun _ _ => toBus_of_toOp, fun o d s ho => ⟨?_, ?_⟩⟩
  · exact busAccess_of_no_op (by rw [BusAccess.toOp, ofOffset_unimplemented ho, Option.map_none]) s
  · exact busAccess_of_no_op (by rw [BusAccess.toOp, ofOffset_unimplemented ho, Option.map_none]) s

/-- A character of the 7-bit code is its own octet (spec/43_version_and_host.md R120). -/
theorem charCode_toNat {ch : Char} (h : ch.toNat < 128) : (charCode ch).toNat = ch.toNat := by
  rw [charCode, BitVec.toNat_ofNat, Nat.mod_eq_of_lt (by omega)]

/-- Settles O52: the line is the run of writes of its characters' codes. -/
theorem textLineStoresItsCharacters : Obligations.TextLineStoresItsCharacters := by
  intro s i text hwf hfits
  have hcodes : ∀ ch ∈ text, ch.toNat < 128 := fun ch hch => of_decide_eq_true (List.all_eq_true.1 hwf ch hch)
  have hlen : (text.map charCode).length = text.length := List.length_map _
  obtain ⟨t, hrun, hframe, hstored, hother⟩ := writeRun_stores (text.map charCode) i s (by rwa [hlen])
  refine ⟨t, hrun, hframe, fun k ch hk => ?_, fun j hj => hother j (by rwa [hlen])⟩
  rw [hstored k (charCode ch) (by rw [List.getElem?_map, hk]; rfl),
    charCode_toNat (hcodes ch (List.mem_of_getElem? hk))]

theorem issueAll_config {ops : List HostOp} {s t : State} (h : issueAll ops s = .next t) : t.config = s.config := by
  induction ops generalizing s with
  | nil => cases h; rfl
  | cons op ops ih =>
    obtain ⟨u, hissue, hrun⟩ := eq_next_of_andThen h
    rw [ih hrun, perform_config (issue_next hissue).2]

/-- A length of more than `LEN_W` bits cannot be written to `ILEN`, so a macro with such an input does not get to its
command (notes/assumptions/6.md). -/
theorem macroSetup_refused {b : List Byte} {s : State} (i : Instr) (h : 2 ^ s.config.lenW ≤ b.length) :
    ∃ r, issueAll (macroSetup b i) s = .refused r := by
  rw [macroSetup, issueAll_append]
  cases hrun : issueAll (writeRun 0 b) s with
  | fault r => cases r
  | refused r => exact ⟨r, rfl⟩
  | next t =>
    have hrange : (HostOp.writeReg .ilen b.length).wf t.config = false := by
      rw [issueAll_config hrun]
      exact decide_eq_false (Nat.not_lt.2 h)
    exact ⟨.valueOutsideRegister, by rw [andThen_next, issueAll, issue_of_not_wf hrange]; rfl⟩

/-- The macro `Encode` after its command, by `ERR` (spec/43_version_and_host.md R121). -/
theorem encodeMacro_of_enc {b : List Byte} {s u t : State}
    (hinput : issueAll (writeRun 0 b ++ [.writeReg .ilen b.length]) s = .next u) (henc : exec .enc u = .next t) :
    encodeMacro b s =
      if errField t.status = 0 then macroResult (t.answer (.reg .status t.status.toNat))
      else .next (.failed .allocationFailure, t.answer (.reg .status t.status.toNat)) := by
  rw [encodeMacro, macroSetup_runs .enc hinput, henc, andThen_next, issue_readReg, andThen_next]
  rfl

/-- With room the macro `Encode` returns what `ENC` leaves, having left the input in `IBUF` and `ILEN`. -/
theorem encodeMacro_of_room {b : List Byte} {s : State} (hfits : b.length < 2 ^ s.config.lenW)
    (hroom : encLen b.length ≤ s.config.obufSize) :
    ∃ u w, encodeMacro b s = .next (.ok (obufOctets (encLen b.length) (encBody u)) (encLen b.length), w) ∧
      u.ilen = b.length ∧ u.config = s.config ∧ (∀ k v, b[k]? = some v → u.readIbuf k = v) ∧
      w = { (encBody u).succeed (encLen b.length) with replies := w.replies } := by
  obtain ⟨u, hinput, hframe, hstored⟩ := macroInput_stores b s hfits
  have hilen : u.ilen = b.length := by rw [hframe]
  have hconfig : u.config = s.config := by rw [hframe]
  rw [← hilen, ← hconfig] at hroom
  have henc := exec_enc_of_room hroom
  have hmacro := encodeMacro_of_enc hinput henc
  rw [succeed_status, if_pos errField_success] at hmacro
  obtain ⟨w, hresult, hw⟩ := macroResult_returns
    (((encBody u).succeed (encLen u.ilen)).answer (.reg .status statusSuccess.toNat))
    (by simpa [(encBody_onlyObuf u).config] using hroom)
  rw [hresult, answer_olen, succeed_olen, hilen] at hmacro
  exact ⟨u, w, hmacro, hilen, hconfig, hstored, hw.trans (by rw [hilen]; rfl)⟩

/-- Settles O53: the macro sets up the input or is refused; then `ENC` has room, or raises `AllocationFailure`. -/
theorem encodeMacroOutcomes : Obligations.EncodeMacroOutcomes := by
  refine fun b s => ⟨fun hfits hroom => ?room, fun hfits hno => ?noRoom, fun hlong => ?refused⟩
  case room =>
    obtain ⟨u, w, hmacro, hilen, hconfig, hstored, hw⟩ := encodeMacro_of_room hfits hroom
    have honly := encBody_onlyObuf u
    have hoctets : obufOctets (encLen b.length) w = obufOctets (encLen b.length) (encBody u) := by rw [hw]; rfl
    refine ⟨w, by rw [hmacro, hoctets], ?_⟩
    rw [hw]
    exact ⟨rfl, rfl, honly.ilen.trans hilen, honly.config.trans hconfig,
      fun k v hk => (honly.readIbuf k).trans (hstored k v hk)⟩
  case noRoom =>
    obtain ⟨u, hinput, hframe, _⟩ := macroInput_stores b s hfits
    have henc := exec_enc_of_no_room (s := u) (by rwa [hframe])
    have hmacro := encodeMacro_of_enc hinput henc
    rw [raise_status, if_neg (by decide)] at hmacro
    exact ⟨_, hmacro, rfl, rfl⟩
  case refused =>
    obtain ⟨r, hsetup⟩ := macroSetup_refused .enc hlong
    exact ⟨r, by rw [encodeMacro, hsetup, andThen_refused]⟩

/-- The macro `Decode` after its command, by `ERR` (spec/43_version_and_host.md R122). -/
theorem decodeMacro_of_dec {chars : List Byte} {s u t : State}
    (hinput : issueAll (writeRun 0 chars ++ [.writeReg .ilen chars.length]) s = .next u)
    (hdec : exec .dec u = .next t) :
    decodeMacro chars s =
      if errField t.status = 0 then macroResult (t.answer (.reg .status t.status.toNat))
      else if errField t.status = 1 then
        .next (.failed .invalidLength, t.answer (.reg .status t.status.toNat))
      else if errField t.status = 2 then
        .next (.failed .allocationFailure, t.answer (.reg .status t.status.toNat))
      else .next (.failed .invalidCharacter, t.answer (.reg .status t.status.toNat)) := by
  rw [decodeMacro, macroSetup_runs .dec hinput, hdec, andThen_next, issue_readReg, andThen_next]
  rfl

theorem commandEnd_of_exec {i : Instr} {s t : State} (h : exec i s = .next t) : CommandEnd s t :=
  commandEnd_of_runCommand ((runCommand_encode i s).trans h)

/-- A `DEC` that succeeded makes the macro `Decode` return its output (spec/43_version_and_host.md R122). -/
theorem decodeMacro_of_success {chars : List Byte} {s u t : State}
    (hinput : issueAll (writeRun 0 chars ++ [.writeReg .ilen chars.length]) s = .next u)
    (hdec : exec .dec u = .next t) (hcode : errField t.status = 0) :
    ∃ w, decodeMacro chars s = .next (.ok (obufOctets t.olen t) t.olen, w) ∧ w = { t with replies := w.replies } := by
  have hend := commandEnd_of_exec hdec
  have hroom : t.olen ≤ t.config.obufSize := hend.config ▸ hend.olen_le
  obtain ⟨w, hresult, hw⟩ := macroResult_returns (t.answer (.reg .status t.status.toNat)) hroom
  refine ⟨w, ?_, hw⟩
  rw [decodeMacro_of_dec hinput hdec, if_pos hcode, hresult]
  rfl

/-- Settles O54: `ERR` picks the arm, and each arm only notes what it reads. -/
theorem decodeMacroOutcomes : Obligations.DecodeMacroOutcomes := by
  intro chars s u t hinput hdec
  have hmacro := decodeMacro_of_dec hinput hdec
  split_ifs at hmacro with h0 h1 h2
  · obtain ⟨w, hresult, hw⟩ := decodeMacro_of_success hinput hdec h0
    exact ⟨_, w, hresult, hw, fun _ => rfl, fun h => by omega, fun h => by omega, fun h => by omega⟩
  · exact ⟨_, _, hmacro, rfl, fun h => by omega, fun _ => rfl, fun h => by omega, fun h => by omega⟩
  · exact ⟨_, _, hmacro, rfl, fun h => by omega, fun h => by omega, fun _ => rfl, fun h => by omega⟩
  · exact ⟨_, _, hmacro, rfl, fun h => absurd h h0, fun h => absurd h h1, fun h => absurd h h2, fun _ => rfl⟩

end Sys2Proof.Machine
end

section
/-! PROOFS. The form of the encoder's output (spec/41_encoder.md section 6), and the last group of the decoder: its
write guard (spec/42_decoder.md R105) and its unused bits (spec/42_decoder.md R99). -/

namespace Sys2Proof.Machine

theorem exists_alpha_of_encChars (s : State) (g k : Nat) : ∃ v : Sextet, pick4 (encChars s g) k = alpha v := by
  unfold pick4
  split_ifs
  · exact ⟨_, rfl⟩
  · exact ⟨_, rfl⟩
  · exact ⟨_, rfl⟩
  · exact ⟨_, rfl⟩

/-- Alphabet closure: below the pad the output is the groups' characters (spec/41_encoder.md R86). -/
theorem exists_alpha_of_encBody {s : State} {i : Nat} (h : i < encLen s.ilen - encPad s.ilen) :
    ∃ v : Sextet, (encBody s).readObuf i = alpha v := by
  rw [encBody_readObuf, if_pos h]
  exact exists_alpha_of_encChars s _ _

/-- Padding law: the pad is at the end and nowhere else, since it is no character of the alphabet
(spec/41_encoder.md R86). -/
theorem encBody_readObuf_eq_padChar_iff {s : State} {i : Nat} (hi : i < encLen s.ilen) :
    (encBody s).readObuf i = padChar ↔ encLen s.ilen - encPad s.ilen ≤ i := by
  refine ⟨fun hpad => Nat.not_lt.1 fun hlt => ?_, fun h => encBody_readObuf_pad h hi⟩
  obtain ⟨v, hv⟩ := exists_alpha_of_encBody hlt
  exact alpha_ne_padChar v (hv.symm.trans hpad)

/-- Settles O34: the output of a successful `ENC`, index by index. -/
theorem encoderOutputWellFormed : Obligations.EncoderOutputWellFormed := by
  intro s t h hsucceeded
  obtain rfl := eq_encBody_of_succeeded h hsucceeded
  exact ⟨rfl, fun i hi => ⟨encBody_readObuf_eq_padChar_iff hi, exists_alpha_of_encBody⟩⟩

/-- Settles O45: the computed length is 3 octets for each group less the pad count, which is at most 2. -/
theorem decoderGuardOnlyAtEnd : Obligations.DecoderGuardOnlyAtEnd := by
  intro s g hlen
  have hsum := decLen_add_padCnt hlen
  have hpad := padCnt_le s
  exact ⟨fun hg => by omega, fun hg k hk => by omega⟩

/-- Two inputs of one length that agree at every position but `q`. -/
def SameInputBut (q : Nat) (s t : State) : Prop :=
  s.ilen = t.ilen ∧ ∀ i, i < s.ilen → i ≠ q → s.readIbuf i = t.readIbuf i

theorem sextetAt_of_sameInputBut {q : Nat} {s t : State} (h : SameInputBut q s t) (p : Nat) {i : Nat}
    (hi : i < s.ilen) (hq : i ≠ q) : sextetAt s p i = sextetAt t p i := by
  obtain ⟨hilen, hoctets⟩ := h
  rw [sextetAt, sextetAt, ← hilen, hoctets i hi hq]

theorem sextetValue_of_sameInputBut {q : Nat} {s t : State} (h : SameInputBut q s t) (p : Nat) {i : Nat}
    (hi : i < s.ilen) (hq : i ≠ q) : sextetValue s p i = sextetValue t p i := by
  rw [sextetValue, sextetValue, sextetAt_of_sameInputBut h p hi hq]

/-- A group without the position `q` is packed alike. -/
theorem decWord_of_sameInputBut {q : Nat} {s t : State} (h : SameInputBut q s t) (p : Nat) {g : Nat}
    (hg : 4 * g + 3 < s.ilen) (hq : 4 * g + 3 < q) : decWord s p g = decWord t p g := by
  have hvalue : ∀ i ≤ 4 * g + 3, sextetValue s p i = sextetValue t p i := fun i hi =>
    sextetValue_of_sameInputBut h p (by omega) (by omega)
  rw [decWord, decWord, hvalue _ (by omega), hvalue _ (by omega), hvalue _ (by omega), hvalue _ (by omega)]

theorem sextetValue_of_sextetAt {s : State} {p i : Nat} {v : Sextet} (h : sextetAt s p i = some v) :
    sextetValue s p i = v := by
  rw [sextetValue, h, Option.getD_some]

theorem charsValid_of_sameInputBut {q : Nat} {s t : State} (h : SameInputBut q s t) {p : Nat} {u v : Sextet}
    (hu : sextetAt s p q = some u) (hv : sextetAt t p q = some v) :
    charsValid s p s.ilen = charsValid t p s.ilen := by
  rw [Bool.eq_iff_iff, charsValid_iff, charsValid_iff]
  refine forall₂_congr fun i hi => ?_
  by_cases hq : i = q
  · rw [hq, hu, hv, Option.isSome_some, Option.isSome_some]
  · rw [sextetAt_of_sameInputBut h p hi hq]

/-- With one pad, octets 0 and 1 of the last group hold the high 4 bits of its third sextet and no more of it
(spec/42_decoder.md R99). -/
theorem pick3_split3_pack4_of_high4 {s1 s2 s3 t3 : Sextet} (s4 t4 : Sextet) {k : Nat} (hk : k < 2)
    (h : s3.extractLsb' 2 4 = t3.extractLsb' 2 4) :
    pick3 (split3 (pack4 s1 s2 s3 s4)) k = pick3 (split3 (pack4 s1 s2 t3 t4)) k := by
  rw [split3_pack4, split3_pack4, h]
  rcases show k = 0 ∨ k = 1 by omega with rfl | rfl <;> rfl

/-- With two pads, octet 0 of the last group holds the high 2 bits of its second sextet and no more of it
(spec/42_decoder.md R99). -/
theorem pick3_split3_pack4_of_high2 {s1 s2 t2 : Sextet} (s3 t3 s4 t4 : Sextet)
    (h : s2.extractLsb' 4 2 = t2.extractLsb' 4 2) :
    pick3 (split3 (pack4 s1 s2 s3 s4)) 0 = pick3 (split3 (pack4 s1 t2 t3 t4)) 0 := by
  rw [split3_pack4, split3_pack4, h]
  rfl

/-- Two inputs with the same checks and the same output octets give the host the same. -/
theorem exec_dec_sameResult {s t : State} (hilen : s.ilen = t.ilen) (hsize : s.config.obufSize = t.config.obufSize)
    (hpad : padCnt s = padCnt t)
    (hchars : charsValid s (padCnt s) s.ilen = charsValid t (padCnt s) s.ilen)
    (hoctets : s.ilen % 4 = 0 → ∀ i < decLen s.ilen (padCnt s), (decBody s).readObuf i = (decBody t).readObuf i) :
    ∃ s' t', exec .dec s = .next s' ∧ exec .dec t = .next t' ∧ sameResult s' t' := by
  rcases execDec_cases s with ⟨hlen, he⟩ | ⟨hlen, hno, he⟩ | ⟨hlen, hroom, hbad, he⟩ | ⟨hlen, hroom, hgood, he⟩
  · exact ⟨_, _, he, exec_dec_of_bad_length (hilen ▸ hlen), sameResult_raise s t _⟩
  · exact ⟨_, _, he, exec_dec_of_no_room (hilen ▸ hlen) (by rwa [← hilen, ← hpad, ← hsize]), sameResult_raise s t _⟩
  · exact ⟨_, _, he, exec_dec_of_bad_character (hilen ▸ hlen) (by rwa [← hilen, ← hpad, ← hsize])
      (by rwa [← hilen, ← hpad, ← hchars]), sameResult_raise s t _⟩
  · exact ⟨_, _, he, exec_dec_of_valid (hilen ▸ hlen) (by rwa [← hilen, ← hpad, ← hsize])
      (by rwa [← hilen, ← hpad, ← hchars]), rfl, by rw [succeed_olen, succeed_olen, ← hilen, hpad], hoctets hlen⟩

/-- Settles O44: the sextets that differ are at the last character before the pad. Every other group is the same; of
the last group the guard lets through only octets without the unused bits. -/
theorem decIgnoresUnusedBits : Obligations.DecIgnoresUnusedBits := by
  intro s t u v hilen hsize hlen hpad hpadded hsame hu hv htwo hone
  have hle := padCnt_le s
  have hpos : s.ilen ≠ 0 := fun hzero => hpadded (padCnt_zero hzero)
  have hbut : SameInputBut (s.ilen - padCnt s - 1) s t := ⟨hilen, hsame⟩
  have hsu : sextetAt s (padCnt s) (s.ilen - padCnt s - 1) = some u :=
    (sextetAt_character (by omega)).trans hu
  have htv : sextetAt t (padCnt s) (s.ilen - padCnt s - 1) = some v :=
    (sextetAt_character (by omega)).trans hv
  refine exec_dec_sameResult hilen hsize hpad (charsValid_of_sameInputBut hbut hsu htv) fun _ i hi => ?octets
  have hguard := decoderGuardOnlyAtEnd s (i / 3) hlen
  have hgroups := decLen_le s.ilen (padCnt s)
  have hvalue : ∀ j < s.ilen, j ≠ s.ilen - padCnt s - 1 →
      sextetValue s (padCnt s) j = sextetValue t (padCnt s) j := fun j => sextetValue_of_sameInputBut hbut _
  have huValue := sextetValue_of_sextetAt hsu
  have hvValue := sextetValue_of_sextetAt htv
  rw [decBody_readObuf, decBody_readObuf, ← hilen, ← hpad, if_pos hi, if_pos hi]
  rcases show i / 3 + 1 < s.ilen / 4 ∨ i / 3 + 1 = s.ilen / 4 by omega with hg | hg
  · rw [decWord_of_sameInputBut hbut _ (by omega) (by omega)]
  · have hk : i % 3 < 3 - padCnt s := (hguard.2 hg (i % 3) (by omega)).1 (by omega)
    have hfirst := hvalue (4 * (i / 3)) (by omega) (by omega)
    rcases show padCnt s = 1 ∨ padCnt s = 2 by omega with hp | hp
    · rw [show s.ilen - padCnt s - 1 = 4 * (i / 3) + 2 by omega] at huValue hvValue
      rw [decWord, decWord, hfirst, hvalue (4 * (i / 3) + 1) (by omega) (by omega), huValue, hvValue]
      exact pick3_split3_pack4_of_high4 _ _ (by omega) (hone hp)
    · rw [show s.ilen - padCnt s - 1 = 4 * (i / 3) + 1 by omega] at huValue hvValue
      rw [decWord, decWord, hfirst, huValue, hvValue, show i % 3 = 0 by omega]
      exact pick3_split3_pack4_of_high2 _ _ _ _ (htwo hp)

end Sys2Proof.Machine
end

section
/-! PROOFS. The round trip (spec/42_decoder.md section 7): a decoder that holds what the encoder wrote finds the
encoder's pad count, its sextets and so its octets. -/

namespace Sys2Proof.Machine

/-- The group integer that `ENC` splits into the characters of group `g` (spec/41_encoder.md R85). -/
def encWord (s : State) (g : Nat) : Group := pack3 (encFetch s g).1 (encFetch s g).2.1 (encFetch s g).2.2

theorem encChars_eq_split4 (s : State) (g : Nat) : encChars s g = split4 (encWord s g) := rfl

theorem split3_encWord (s : State) (g : Nat) : split3 (encWord s g) = encFetch s g := split3_pack3 _ _ _

/-- Octet `i` of the input stands in the group it belongs to (spec/41_encoder.md R81). -/
theorem pick3_encFetch {s : State} {i : Nat} (h : i < s.ilen) :
    pick3 (encFetch s (i / 3)) (i % 3) = s.readIbuf i := by
  rcases show i % 3 = 0 ∨ i % 3 = 1 ∨ i % 3 = 2 by omega with hk | hk | hk <;> rw [hk]
  · show (encFetch s (i / 3)).1 = _
    rw [encFetch_fst, show 3 * (i / 3) = i by omega]
  · show (encFetch s (i / 3)).2.1 = _
    rw [encFetch_snd_inside (by omega), show 3 * (i / 3) + 1 = i by omega]
  · show (encFetch s (i / 3)).2.2 = _
    rw [encFetch_thd_inside (by omega), show 3 * (i / 3) + 2 = i by omega]

/-- Where the encoder writes the pad, the group's own character is that of the sextet 0 (spec/41_encoder.md R84). -/
theorem pick4_encChars_of_padded {s : State} {i : Nat} (hlo : encLen s.ilen - encPad s.ilen ≤ i)
    (hhi : i < encLen s.ilen) : pick4 (encChars s (i / 4)) (i % 4) = alpha 0#6 := by
  rw [encPad_eq_missing] at hlo
  unfold encLen at hlo hhi
  have hg : i / 4 = s.ilen / 3 := by omega
  rcases show s.ilen % 3 = 1 ∨ s.ilen % 3 = 2 by omega with h | h
  · rw [hg, encChars, encFetch_last_of_mod_one h, split4_pack3_one_octet]
    rcases show i % 4 = 2 ∨ i % 4 = 3 by omega with hk | hk <;> rw [hk] <;> exact alpha_zero.symm
  · rw [hg, encChars, encFetch_last_of_mod_two h, split4_pack3_two_octets, show i % 4 = 3 by omega]
    exact alpha_zero.symm

/-- The decoder undoes the encoder's length: 3 octets for 4 characters, less the pad (spec/42_decoder.md R96). -/
theorem decLen_encLen (n : Nat) : decLen (encLen n) (encPad n) = n := by
  rw [encPad_eq_missing, decLen, encLen]
  omega

theorem length_obufOctets (m : Nat) (s : State) : (obufOctets m s).length = m := by
  rw [obufOctets, List.length_map, List.length_range]

theorem getElem?_obufOctets {m k : Nat} (h : k < m) (s : State) : (obufOctets m s)[k]? = some (s.readObuf k) := by
  rw [obufOctets, List.getElem?_map, List.getElem?_range h, Option.map_some]

/-- A buffer that reads as the list, octet by octet, is read back as the list. -/
theorem obufOctets_eq {b : List Byte} {s : State} (h : ∀ k v, b[k]? = some v → s.readObuf k = v) :
    obufOctets b.length s = b := by
  refine List.ext_getElem? fun k => ?_
  rcases Nat.lt_or_ge k b.length with hlt | hge
  · rw [getElem?_obufOctets hlt, h k _ (List.getElem?_eq_getElem hlt), List.getElem?_eq_getElem hlt]
  · rw [List.getElem?_eq_none hge, List.getElem?_eq_none (by rwa [length_obufOctets])]

/-- The input of `u` is what `ENC` writes for the input of `v`. -/
def HoldsEncoding (u v : State) : Prop :=
  u.ilen = encLen v.ilen ∧ ∀ i < encLen v.ilen, u.readIbuf i = (encBody v).readObuf i

section

variable {u v : State} (h : HoldsEncoding u v)
include h

theorem HoldsEncoding.readIbuf_eq_padChar_iff {i : Nat} (hi : i < encLen v.ilen) :
    u.readIbuf i = padChar ↔ encLen v.ilen - encPad v.ilen ≤ i := by
  rw [h.2 i hi, encBody_readObuf_eq_padChar_iff hi]

/-- The decoder counts the pads that the encoder wrote: they are the last characters and no others. -/
theorem HoldsEncoding.padCnt_eq : padCnt u = encPad v.ilen := by
  have hilen := h.1
  have hmissing := encPad_eq_missing v.ilen
  have hle := encPad_le_encLen v.ilen
  rcases Nat.eq_zero_or_pos v.ilen with hzero | hpos
  · rw [padCnt_zero (by rw [hilen, hzero]; rfl), hzero]
    rfl
  have hfour : 4 ≤ encLen v.ilen := by unfold encLen; omega
  have hlast := h.readIbuf_eq_padChar_iff (i := u.ilen - 1) (by omega)
  have hprev := h.readIbuf_eq_padChar_iff (i := u.ilen - 2) (by omega)
  rcases show encPad v.ilen = 0 ∨ encPad v.ilen = 1 ∨ encPad v.ilen = 2 by omega with hp | hp | hp
  · rw [padCnt_of_last_ne (mt hlast.1 (by omega)), hp]
  · rw [padCnt_of_last_only (by omega) (hlast.2 (by omega)) (mt hprev.1 (by omega)), hp]
  · rw [padCnt_of_last_two (by omega) (hlast.2 (by omega)) (hprev.2 (by omega)), hp]

theorem HoldsEncoding.decLen_eq : decLen u.ilen (padCnt u) = v.ilen := by
  rw [h.padCnt_eq, h.1, decLen_encLen]

/-- The decoder reads at each position the sextet the encoder had there, at a pad the 0 that the pad replaced. -/
theorem HoldsEncoding.sextetAt_eq {i : Nat} (hi : i < encLen v.ilen) :
    sextetAt u (padCnt u) i = inv (pick4 (encChars v (i / 4)) (i % 4)) := by
  rw [h.padCnt_eq]
  rcases Nat.lt_or_ge i (encLen v.ilen - encPad v.ilen) with hlt | hge
  · rw [sextetAt_character (by rwa [h.1]), h.2 i hi, encBody_readObuf, if_pos hlt]
  · rw [sextetAt_counted (by rwa [h.1]), pick4_encChars_of_padded hge hi, inv_alpha]

/-- The character check passes: every character is of the alphabet or a counted pad. -/
theorem HoldsEncoding.charsValid_eq : charsValid u (padCnt u) u.ilen = true := by
  refine (charsValid_iff _ _ _).2 fun i hi => ?_
  obtain ⟨c, hc⟩ := exists_alpha_of_encChars v (i / 4) (i % 4)
  rw [h.sextetAt_eq (h.1 ▸ hi), hc, inv_alpha]
  rfl

/-- The decoder packs the encoder's group integer again. -/
theorem HoldsEncoding.decWord_eq {g : Nat} (hg : 3 * g < v.ilen) : decWord u (padCnt u) g = encWord v g := by
  have hsextet : ∀ k < 4, sextetAt u (padCnt u) (4 * g + k) = inv (pick4 (split4 (encWord v g)) k) := by
    intro k hk
    rw [h.sextetAt_eq (by unfold encLen; omega), encChars_eq_split4, show (4 * g + k) / 4 = g by omega,
      show (4 * g + k) % 4 = k by omega]
  have hvalue : ∀ k < 4, ∀ x : Sextet, pick4 (split4 (encWord v g)) k = alpha x →
      sextetValue u (padCnt u) (4 * g + k) = x := by
    intro k hk x hx
    rw [sextetValue, hsextet k hk, hx, inv_alpha, Option.getD_some]
  rw [decWord, hvalue 1 (by decide) _ rfl, hvalue 2 (by decide) _ rfl, hvalue 3 (by decide) _ rfl,
    show sextetValue u (padCnt u) (4 * g) = _ from hvalue 0 (by decide) _ rfl]
  exact pack4_sextets _

/-- Each octet comes out again. -/
theorem HoldsEncoding.decBody_readObuf_eq {i : Nat} (hi : i < v.ilen) : (decBody u).readObuf i = v.readIbuf i := by
  rw [decBody_readObuf, h.decLen_eq, if_pos hi, h.decWord_eq (by omega), split3_encWord, pick3_encFetch hi]

/-- Read back, the decoder's output is the list that the encoder was given. -/
theorem HoldsEncoding.obufOctets_decBody {b : List Byte} (hlen : v.ilen = b.length)
    (hstored : ∀ k x, b[k]? = some x → v.readIbuf k = x) : obufOctets b.length (decBody u) = b := by
  refine obufOctets_eq fun k x hk => ?_
  have hlt : k < b.length := (List.getElem?_eq_some_iff.1 hk).1
  rw [h.decBody_readObuf_eq (by rwa [hlen]), hstored k x hk]

/-- `DEC` succeeds if there is room for the octets that were encoded. -/
theorem HoldsEncoding.exec_dec (hroom : v.ilen ≤ u.config.obufSize) :
    exec .dec u = .next ((decBody u).succeed v.ilen) := by
  have hlen : u.ilen % 4 = 0 := by rw [h.1, encLen_mod_four]
  rw [exec_dec_of_valid hlen (by rwa [h.decLen_eq]) h.charsValid_eq, h.decLen_eq]

end

theorem le_encLen (n : Nat) : n ≤ encLen n := by
  unfold encLen
  omega

/-- Settles O55: the macro `Decode` gives the decoder what `ENC` wrote, and the decoder gives back the encoder's
octets. -/
theorem decodeOfEncodeIsIdentity : Obligations.DecodeOfEncodeIsIdentity := by
  intro b s hfits hencFits hroom
  obtain ⟨v, t, hencode, hvilen, hvconfig, hvstored, ht⟩ := encodeMacro_of_room hfits hroom
  have htconfig : t.config = s.config := by
    rw [ht, ← hvconfig, ← (encBody_onlyObuf v).config]
    rfl
  have hchars := length_obufOctets (encLen b.length) (encBody v)
  obtain ⟨u, hinput, huframe, hustored⟩ :=
    macroInput_stores (obufOctets (encLen b.length) (encBody v)) t (by rwa [hchars, htconfig])
  have huconfig : u.config = s.config := by rw [huframe, ← htconfig]
  have hholds : HoldsEncoding u v := by
    refine ⟨by rw [huframe, hvilen]; exact hchars, fun i hi => ?_⟩
    rw [hvilen] at hi
    exact hustored i _ (getElem?_obufOctets hi _)
  have hdec := hholds.exec_dec (by rw [hvilen, huconfig]; exact (le_encLen _).trans hroom)
  rw [hvilen] at hdec
  have hoctets : obufOctets b.length ((decBody u).succeed b.length) = b := hholds.obufOctets_decBody hvilen hvstored
  obtain ⟨w, hdecode, hw⟩ := decodeMacro_of_success hinput hdec errField_success
  rw [succeed_olen, hoctets] at hdecode
  refine ⟨_, t, w, hencode, hdecode, ?_, ?_⟩
  · rw [hw]
    exact statusSuccess_eq
  · rw [hw]
    rfl

end Sys2Proof.Machine
end
